-- ==== Sys2Proof/Config.lean ====
section
/-! DEFINITION. Config: what is fixed when the block is built (rule R27), and the one free value of the model. -/

namespace Sys2Proof

/-- The three parameters of rule R27, fixed when the hardware is built: fields here, and of no state. No command reads or
writes one (rules R17, R27). What D00 itself fixes (rule R5) is no parameter and is not here. -/
structure Config where
  /-- `ADDR_BITS`, the width of the OFFSET and LEN ports; any number from 4 up (rule R5, OPEN). -/
  addrBits : Nat
  /-- `STRICT_BOUNDS`, the boundary policy of rule R80; true is the original library's check. -/
  strictBounds : Bool
  /-- The number of FWC instances on the platform, 1 or more (rules R5, R108, D15; log entry 17). A state is that of one
  instance; Machine/Platform.lean has as many as this says. -/
  instances : Nat
  deriving DecidableEq, Repr

/-- The hardware specified: `ADDR_BITS` at its default 32, `STRICT_BOUNDS = 0`, and the default one instance (rule R5;
log entries 3, 4 and 17). -/
def Config.hardware : Config where
  addrBits := 32
  strictBounds := false
  instances := 1

/-- FREE VALUE (rule R49, U2 of 93_implementation_defined.md; log entry 11). Whether, in the `tick`-th race of a run,
the byte that stays at position `p` is the command's (true) or the other writer's (false). It has no body: nothing
can be proved of which byte wins, position by position and race by race. -/
opaque Config.raceWinner (tick p : Nat) : Bool

end Sys2Proof
end

