-- ==== Sys2Proof/Word.lean ====
section
/-! DEFINITION. Word: the byte, the four widths and the two byte orders. -/

namespace Sys2Proof

/-- A position of the buffer holds 8 bits (`BYTE_BITS`, rule R5). -/
abbrev Byte := BitVec 8

/-- The set of widths (rules R5, R55): the value has 8, 16, 32 or 64 bits. -/
inductive Width where
  | w8 | w16 | w32 | w64
  deriving DecidableEq, Repr

/-- `W`, the width in bytes (rule R5). -/
def Width.bytes : Width → Nat
  | .w8 => 1
  | .w16 => 2
  | .w32 => 4
  | .w64 => 8

/-- The width in bits, `8W`. -/
def Width.bits (w : Width) : Nat := 8 * w.bytes

/-- The endianness flag (rule R12): `big` is `BE = 1`, `little` is `BE = 0`. -/
inductive Order where
  | little | big
  deriving DecidableEq, Repr

end Sys2Proof
end

