-- ==== Sys2Proof/Syntax.lean ====
section
/-! DEFINITION. Syntax: the sixteen commands of rule R58, and a command as the host presents it. -/

namespace Sys2Proof

/-- The sixteen commands, in the order of the command word (rule R58). The command word carries no operand
(rule R59): the value, the offset and the length come on ports, so no constructor has an argument. -/
inductive Instr where
  | encnew8Le | encnew16Le | encnew32Le | encnew64Le
  | encnew8Be | encnew16Be | encnew32Be | encnew64Be
  | encinto8Le | encinto16Le | encinto32Le | encinto64Le
  | encinto8Be | encinto16Be | encinto32Be | encinto64Be
  deriving DecidableEq, Repr

/-- A command with its operands: what the input ports carry (rule R20), in the order (CMD, VALUE, OFFSET, LEN) of the
test vectors. OFFSET and LEN are natural numbers, as rule R5 allows (log entry 4). LEN is the length of the buffer
presented with the command (rule R114; log entry 5). -/
structure Command where
  cmd : BitVec 4
  value : BitVec 64
  offset : Nat
  len : Nat
  deriving DecidableEq, Repr

/-- The result form, field INTO (rule R57): true for the ENCINTO family. -/
def Instr.isInto : Instr → Bool
  | .encnew8Le | .encnew16Le | .encnew32Le | .encnew64Le => false
  | .encnew8Be | .encnew16Be | .encnew32Be | .encnew64Be => false
  | .encinto8Le | .encinto16Le | .encinto32Le | .encinto64Le => true
  | .encinto8Be | .encinto16Be | .encinto32Be | .encinto64Be => true

/-- The width of the instruction, column W of rule R58. -/
def Instr.width : Instr → Width
  | .encnew8Le | .encnew8Be | .encinto8Le | .encinto8Be => .w8
  | .encnew16Le | .encnew16Be | .encinto16Le | .encinto16Be => .w16
  | .encnew32Le | .encnew32Be | .encinto32Le | .encinto32Be => .w32
  | .encnew64Le | .encnew64Be | .encinto64Le | .encinto64Be => .w64

/-- The byte order of the instruction, column "order" of rule R58. -/
def Instr.order : Instr → Order
  | .encnew8Le | .encnew16Le | .encnew32Le | .encnew64Le => .little
  | .encnew8Be | .encnew16Be | .encnew32Be | .encnew64Be => .big
  | .encinto8Le | .encinto16Le | .encinto32Le | .encinto64Le => .little
  | .encinto8Be | .encinto16Be | .encinto32Be | .encinto64Be => .big

/-- The mnemonic of rule R58. -/
def Instr.mnemonic : Instr → String
  | .encnew8Le => "ENCNEW8.LE"
  | .encnew16Le => "ENCNEW16.LE"
  | .encnew32Le => "ENCNEW32.LE"
  | .encnew64Le => "ENCNEW64.LE"
  | .encnew8Be => "ENCNEW8.BE"
  | .encnew16Be => "ENCNEW16.BE"
  | .encnew32Be => "ENCNEW32.BE"
  | .encnew64Be => "ENCNEW64.BE"
  | .encinto8Le => "ENCINTO8.LE"
  | .encinto16Le => "ENCINTO16.LE"
  | .encinto32Le => "ENCINTO32.LE"
  | .encinto64Le => "ENCINTO64.LE"
  | .encinto8Be => "ENCINTO8.BE"
  | .encinto16Be => "ENCINTO16.BE"
  | .encinto32Be => "ENCINTO32.BE"
  | .encinto64Be => "ENCINTO64.BE"

end Sys2Proof
end

