-- ==== Sys2Proof/WellFormed.lean ====
section
/-! DEFINITION. WellFormed: which instructions and commands the hardware can be given. -/

namespace Sys2Proof

/-- Every instruction is well formed: there is no reserved, illegal, hint or custom encoding, and no operand field to
check (rules R59, R62). -/
def Instr.wf : Instr → Bool
  | .encnew8Le | .encnew16Le | .encnew32Le | .encnew64Le => true
  | .encnew8Be | .encnew16Be | .encnew32Be | .encnew64Be => true
  | .encinto8Le | .encinto16Le | .encinto32Le | .encinto64Le => true
  | .encinto8Be | .encinto16Be | .encinto32Be | .encinto64Be => true

/-- OFFSET fits its port of `ADDR_BITS` bits (rules R20, R61). -/
def Command.offsetFits (cfg : Config) (c : Command) : Bool := c.offset < 2 ^ cfg.addrBits

/-- LEN fits its port: L runs from 0 to `2^ADDR_BITS - 1` (rules R20, R28). -/
def Command.lenFits (cfg : Config) (c : Command) : Bool := c.len < 2 ^ cfg.addrBits

/-- A command the ports of a block with parameters `cfg` can carry. CMD and VALUE carry every bit pattern
(rules R11, R62). -/
def Command.wf (cfg : Config) (c : Command) : Bool := c.offsetFits cfg && c.lenFits cfg

/-- A legal parameter setting: `ADDR_BITS` is at least 4, and there is at least one instance (rule R5, D15). -/
def Config.wf (cfg : Config) : Bool := 4 ≤ cfg.addrBits && 1 ≤ cfg.instances

end Sys2Proof
end

