-- ==== Sys2Proof/Decode.lean ====
section
/-! DEFINITION. Decode: three field extractions that cannot fail (rule R58), then the encoder from the map of rule R58. -/

namespace Sys2Proof

/-- Field INTO, CMD[3] (rules R54, R57). -/
def fieldInto (c : BitVec 4) : Bool := c.getLsbD 3

/-- Field BE, CMD[2] (rules R54, R56). -/
def fieldBe (c : BitVec 4) : Order := if c.getLsbD 2 then .big else .little

/-- Field WSEL, CMD[1:0]: W = 2^WSEL bytes (rules R54, R55). -/
def fieldWsel (c : BitVec 4) : Width :=
  if c.getLsbD 1 then (if c.getLsbD 0 then .w64 else .w32) else (if c.getLsbD 0 then .w16 else .w8)

/-- The command the three fields select (rules R54 to R58). -/
def instrOfFields : Bool → Order → Width → Instr
  | false, .little, .w8 => .encnew8Le
  | false, .little, .w16 => .encnew16Le
  | false, .little, .w32 => .encnew32Le
  | false, .little, .w64 => .encnew64Le
  | false, .big, .w8 => .encnew8Be
  | false, .big, .w16 => .encnew16Be
  | false, .big, .w32 => .encnew32Be
  | false, .big, .w64 => .encnew64Be
  | true, .little, .w8 => .encinto8Le
  | true, .little, .w16 => .encinto16Le
  | true, .little, .w32 => .encinto32Le
  | true, .little, .w64 => .encinto64Le
  | true, .big, .w8 => .encinto8Be
  | true, .big, .w16 => .encinto16Be
  | true, .big, .w32 => .encinto32Be
  | true, .big, .w64 => .encinto64Be

/-- The decoder of the CMD port: total, every value is a command (rule R62). -/
def decodeCmd (c : BitVec 4) : Instr := instrOfFields (fieldInto c) (fieldBe c) (fieldWsel c)

/-- Why a number is no command word. The block itself has no such case (rule R62). -/
inductive DecodeError where
  /-- The number has a bit above bit 3, and the port CMD has the four wires CMD[3:0] only (rule R54; log entry 13). -/
  | bitsAboveCmd (w : Nat)
  deriving DecidableEq, Repr

/-- Decoding of a number offered as a command word: there is one length, four bits (rules R54, R63). -/
def decodeWord (w : Nat) : Except DecodeError Instr :=
  if w < 16 then .ok (decodeCmd (BitVec.ofNat 4 w)) else .error (.bitsAboveCmd w)

/-- The decoder as the host asks it: bit 0 of `w` is CMD[0]. The command word fits the first byte whatever `nbits` says,
and the word is not stored anywhere, so there is no byte order to settle (rules R52, R54). -/
def decodeTableWord (_nbits w : Nat) : Option Instr :=
  match decodeWord w with
  | .ok i => some i
  | .error _ => none

/-- The encoder: column CMD of rule R58, written in binary as `INTO, BE, WSEL[1:0]`. -/
def encode : Instr → BitVec 4
  | .encnew8Le => 0b0000#4
  | .encnew16Le => 0b0001#4
  | .encnew32Le => 0b0010#4
  | .encnew64Le => 0b0011#4
  | .encnew8Be => 0b0100#4
  | .encnew16Be => 0b0101#4
  | .encnew32Be => 0b0110#4
  | .encnew64Be => 0b0111#4
  | .encinto8Le => 0b1000#4
  | .encinto16Le => 0b1001#4
  | .encinto32Le => 0b1010#4
  | .encinto64Le => 0b1011#4
  | .encinto8Be => 0b1100#4
  | .encinto16Be => 0b1101#4
  | .encinto32Be => 0b1110#4
  | .encinto64Be => 0b1111#4

/-- The instruction a presented command asks for. -/
def Command.instr (c : Command) : Instr := decodeCmd c.cmd

end Sys2Proof
end

