-- ==== Sys2Proof/Machine/ByteOrder.lean ====
section
/-! DEFINITION. ByteOrder: the byte-order function of rules R33 and R34, over natural numbers as rule R121 has it. -/

namespace Sys2Proof.Machine

/-- The shift amount `sh(W, be, k)` (rule R33). -/
def sh (w : Width) : Order → Nat → Nat
  | .big, k => 8 * (w.bytes - 1 - k)
  | .little, k => 8 * k

/-- `lane(V, W, be, k) = (V >> sh(W, be, k)) & 0xFF` (rule R33), shifts and masks being those of rule R7. -/
def lane (v : Nat) (w : Width) (o : Order) (k : Nat) : Byte := BitVec.ofNat 8 ((v >>> sh w o k) &&& 0xFF)

/-- `bytes(V, W, be)`: lanes 0 to W-1 (rule R34). -/
def bytes (v : Nat) (w : Width) (o : Order) : List Byte := (List.range w.bytes).map (lane v w o)

/-- The value of a sequence whose first byte is the least significant. -/
def littleValue : List Byte → Nat
  | [] => 0
  | b :: bs => b.toNat + 256 * littleValue bs

/-- `decode_ref` of 95_test_vectors.md Part 2: the mathematical inverse of `bytes`. NOT an operation of the hardware
(rule R4). -/
def decodeRef (bs : List Byte) : Order → Nat
  | .little => littleValue bs
  | .big => littleValue bs.reverse

end Sys2Proof.Machine
end

