-- ==== Sys2Proof/Machine/State.lean ====
section
/-! DEFINITION. State: the ports, the caller-owned buffer, the response, and the host's side of a run. The block itself
keeps nothing between commands (rules R13 to R19). -/

namespace Sys2Proof.Machine

/-- The contents of the buffer: (position, byte) pairs with strictly rising positions (rules R21, R28). A position that is
not listed holds a byte nobody has stated: it reads as no value (log entry 2). -/
abbrev Memory := List Host.Cell

/-- The error kinds: exactly one (rules R92, R99). It carries nothing (rule R94). -/
inductive CodecError where
  | bufferOverflowError
  deriving DecidableEq, Repr

/-- The response to a command, one of three shapes (rule R22). -/
inductive Response where
  /-- The W bytes of an ENCNEW command. -/
  | new (bs : List Byte)
  /-- The count of bytes an ENCINTO command wrote. -/
  | ok (n : Nat)
  /-- An ENCINTO command whose bounds check failed. -/
  | err (e : CodecError)
  deriving DecidableEq, Repr

/-- What the host can do, one event a step (log entry 6). -/
inductive HostEvent where
  /-- Issue a command and receive its response (rule R10). -/
  | issue (c : Command)
  /-- Issue a command while another writer (a second instance or anything else) writes the listed bytes into the same
  buffer, and the host has not ordered the two (rules R49, R115; log entry 11). -/
  | issueRacing (c : Command) (other : Memory)
  /-- Present other buffer contents to the commands that follow; between commands the buffer is the host's to change
  (rules R21, R118; log entry 21). -/
  | present (contents : Memory)
  /-- Reset the block between two commands (rules R109, R110). -/
  | resetBlock
  deriving DecidableEq, Repr

/-- What the host does once a command has answered `err` (rule R103; U9). -/
inductive HostPolicy where
  /-- The reference sequencer: issue nothing further (rule R103; log entry 8). -/
  | stopAtError
  /-- A host that carries on all the same; the run stays faulted (U9; log entry 10). -/
  | carryOn
  deriving DecidableEq, Repr

/-- Why the machine stops. -/
inductive Fault where
  /-- Raised by `step`, never by an instruction: an earlier command of the run answered `err(BufferOverflowError)` and the
  reference sequencer issues nothing after it, so the run is faulted and not final (rule R103, U9; log entry 8).
  SAFE: the model goes on nowhere a host could go on. -/
  | bufferOverflowError
  deriving DecidableEq, Repr

/-- Why the model gives no meaning. -/
inductive Refusal where
  /-- Raised by an arm of `exec` for an instruction without a meaning. No arm raises it. SAFE. -/
  | notModelled (mnemonic : String)
  deriving DecidableEq, Repr

/-- The state. `ports`, `buffer` and `response` are what the spec gives the block to work on (rules R20 to R23); the rest
is the host's side of a run (rules R15, R103) and is no state of the block. -/
structure State where
  /-- The input ports CMD, VALUE, OFFSET, LEN as sampled at the last command (rules R20, R118; log entry 1). -/
  ports : Command
  /-- The caller-owned buffer (rule R21; log entries 2 and 5). -/
  buffer : Memory
  /-- The response to the command of the last step, or none when no command is being answered (rules R22, R26; log
  entries 7 and 15). -/
  response : Option Response
  /-- The host's events still to come, the next one first (rules R15, R122; log entry 6). -/
  script : List HostEvent
  /-- The host's policy after an error (rule R103; log entries 8 and 10). -/
  policy : HostPolicy
  /-- Some command of this run has answered `err` (D11, rule R103; log entry 9). -/
  faulted : Bool
  /-- How many races the run has had: where the next free values are drawn (log entry 11). -/
  raceTick : Nat
  deriving DecidableEq, Repr

/-- Right after reset no command has been presented and none is being answered (rules R24, R26). The buffer is the host's
and nothing of it is stated (rules R25, R113; log entry 2). The port values and the host's fields are the model's choice
(log entries 1, 6, 8, 9, 11). -/
def State.reset : State where
  ports := { cmd := 0#4, value := 0#64, offset := 0, len := 0 }
  buffer := []
  response := none
  script := []
  policy := .stopAtError
  faulted := false
  raceTick := 0

end Sys2Proof.Machine
end

