-- ==== Sys2Proof/Machine/Flags.lean ====
section
/-! DEFINITION. Flags: the bounds predicate and the result ports. The block has no flag that persists (rule R16): the one
status is the outcome of the current command. -/

namespace Sys2Proof.Machine

/-- The bounds predicate `overflow(off, W, L)` for either value of STRICT_BOUNDS (rule R80), the sum being that of the
natural numbers (rule R79). It is the same for all widths and orders. -/
def overflow (strict : Bool) (off w l : Nat) : Bool :=
  if strict then off + w ≥ l else off + w > l

/-- The adder of rule R79 for ports of `n` bits: `OFFSET + W` held in `n + 1` bits. -/
def boundsSum {n : Nat} (off : BitVec n) (w : Width) : BitVec (n + 1) :=
  off.setWidth (n + 1) + BitVec.ofNat (n + 1) w.bytes

/-- The check as the hardware makes it: the sum compared with `zext(LEN)` at `n + 1` bits (rules R61, R79). The meanings
use `overflow`; this is what an implementation builds for it. -/
def boundsCheck {n : Nat} (strict : Bool) (off len : BitVec n) (w : Width) : Bool :=
  if strict then (len.setWidth (n + 1)).ule (boundsSum off w) else (len.setWidth (n + 1)).ult (boundsSum off w)

/-- Does the response report the error? -/
def isErr : Option Response → Bool
  | some (.err .bufferOverflowError) => true
  | some (.new _) => false
  | some (.ok _) => false
  | none => false

/-- How many bytes of the buffer the answered command wrote: the count of `ok(n)`, else none. -/
def countWritten : Option Response → Nat
  | some (.ok n) => n
  | some (.new _) => 0
  | some (.err _) => 0
  | none => 0

/-- Port STATUS: 0 is no error, 1 is BufferOverflowError (rules R23, R26, R93). -/
def statusPort : Option Response → BitVec 1
  | some (.new _) => 0#1
  | some (.ok _) => 0#1
  | some (.err .bufferOverflowError) => 1#1
  | none => 0#1

/-- Port COUNT (rules R23, R26). -/
def countPort : Option Response → BitVec 4
  | some (.new bs) => BitVec.ofNat 4 bs.length
  | some (.ok n) => BitVec.ofNat 4 n
  | some (.err _) => 0#4
  | none => 0#4

/-- The number whose byte `k` is `bs[k]` and whose bytes from `bs.length` up are 0: `bs` on the lanes of OUT (rule R6). -/
def packLanes : List Byte → Nat
  | [] => 0
  | b :: bs => b.toNat + 256 * packLanes bs

/-- Port OUT (rules R23, R26). -/
def outPort : Option Response → BitVec 64
  | some (.new bs) => BitVec.ofNat 64 (packLanes bs)
  | some (.ok _) => 0#64
  | some (.err _) => 0#64
  | none => 0#64

/-- Lane `k` of the 64-bit port OUT: `OUT[8k+7:8k]` (rule R6). -/
def outLane (out : BitVec 64) (k : Nat) : Byte := out.extractLsb' (8 * k) 8

end Sys2Proof.Machine
end

