-- ==== Sys2Proof/Machine/Operands.lean ====
section
/-! DEFINITION. Operands: the operands of rules R20 and R59 to R61, each read from its port. There is no other operand
form: no register, no immediate, no addressing mode but OFFSET itself (rules R14, R32, R59). -/

namespace Sys2Proof.Machine

/-- `V = VALUE[8W-1:0]`, read as an unsigned number; bits 63:8W are ignored (rule R60). -/
def valueOperand (w : Width) (s : State) : Nat := s.ports.value.toNat % 2 ^ w.bits

/-- OFFSET at its face value (rule R61). -/
def offsetOperand (s : State) : Nat := s.ports.offset

/-- LEN at its face value: L, the length of the presented buffer (rules R61, R114). -/
def lenOperand (s : State) : Nat := s.ports.len

end Sys2Proof.Machine
end

