-- ==== Sys2Proof/Machine/Ops.lean ====
section
/-! DEFINITION. Ops: the buffer operations, the response, and the report of the one error. -/

namespace Sys2Proof.Machine

/-- What position `p` of the buffer holds: no value when nobody has stated it (log entry 2). No instruction reads
(rule R43); statements and tests do. -/
def Memory.read : Memory → Nat → Option Byte
  | [], _ => none
  | (a, b) :: rest, p => if a = p then some b else Memory.read rest p

/-- The byte-write path (rule R20): position `p` takes `v`. It keeps the positions strictly rising. -/
def Memory.writeByte : Memory → Nat → Byte → Memory
  | [], p, v => [(p, v)]
  | (a, b) :: rest, p, v =>
    if a = p then (p, v) :: rest
    else if p < a then (p, v) :: (a, b) :: rest
    else (a, b) :: Memory.writeByte rest p v

/-- `MemWrite(p, n, bs)` with `n = len(bs)`: position `p + k` takes `bs[k]`, every other position keeps its value
(rules R9, R32). -/
def Memory.write : Memory → Nat → List Byte → Memory
  | m, _, [] => m
  | m, p, b :: bs => Memory.write (Memory.writeByte m p b) (p + 1) bs

/-- The canonical form: strictly rising positions. No entry can equal what an unlisted position reads as, which is no
value (log entry 2). -/
def Memory.wf : Memory → Bool
  | [] => true
  | [_] => true
  | (a, _) :: (b, v) :: rest => a < b && Memory.wf ((b, v) :: rest)

/-- Every listed position is one that a port of `ADDR_BITS` bits can name (rule R28). -/
def Memory.within (cfg : Config) (m : Memory) : Bool := m.all fun cell => cell.1 < 2 ^ cfg.addrBits

/-- Positions `0` to `n - 1` as a sequence: the whole buffer, when `n` is its length. -/
def Memory.contents (m : Memory) (n : Nat) : List (Option Byte) := (List.range n).map (Memory.read m)

/-- The bytes of another writer land with no command in between: each listed byte replaces what its position held. -/
def Memory.overlay : Memory → Memory → Memory
  | m, [] => m
  | m, (p, v) :: rest => Memory.overlay (Memory.writeByte m p v) rest

/-- The bytes of another writer land unordered with a command that has just written `n` bytes at `off`. At a position the
command wrote, the free choice `wins` says whether the command's byte stands; elsewhere the other writer's byte does
(rule R49; U2). -/
def Memory.overlayRacing (wins : Nat → Bool) (off n : Nat) : Memory → Memory → Memory
  | m, [] => m
  | m, (p, v) :: rest =>
    if off ≤ p ∧ p < off + n ∧ wins p = true then Memory.overlayRacing wins off n m rest
    else Memory.overlayRacing wins off n (Memory.writeByte m p v) rest

/-- `respond r` (rules R9, R22): the response of this command replaces the one before it (rule R116). -/
def respond (r : Response) (s : State) : State := { s with response := some r }

/-- `MemWrite` on the buffer of the state: one step, all bytes (rule R46). -/
def memWrite (p : Nat) (bs : List Byte) (s : State) : State := { s with buffer := Memory.write s.buffer p bs }

/-- `raise BufferOverflowError()`, the one exception of the block (rules R92 to R96). The report is the response to the
failing command and nothing else: no state is saved, no mode or mask changes, no vector is consulted, control goes
nowhere, and no byte is written (log entry 14). There is no return from it (rule R98): nothing was saved, so there is
no operation to restore anything, and the next command runs as any other. -/
def raiseBufferOverflow (s : State) : State := respond (.err .bufferOverflowError) s

/-- No command is being answered: the result ports idle (rule R26). -/
def clearResponse (s : State) : State := { s with response := none }

/-- Apply `f` to the next state, if there is one. -/
def mapNext (f : State → State) : Host.Outcome State Fault Refusal → Host.Outcome State Fault Refusal
  | .next s => .next (f s)
  | .fault r => .fault r
  | .refused r => .refused r

end Sys2Proof.Machine
end

