-- ==== Sys2Proof/Machine/EncInto.lean ====
section
/-! DEFINITION. EncInto: the ENCINTO family (rules R78 to R91). -/

namespace Sys2Proof.Machine

/-- What every ENCINTO command does, for either boundary policy (rules R78 to R82): first the bounds check; then either
the error and no write, or all W bytes written at OFFSET and the count W. -/
def encInto (strict : Bool) (w : Width) (o : Order) (s : State) : Host.Outcome State Fault Refusal :=
  if overflow strict (offsetOperand s) w.bytes (lenOperand s) then .next (raiseBufferOverflow s)
  else .next (respond (.ok w.bytes) (memWrite (offsetOperand s) (bytes (valueOperand w s) w o) s))

/-- `ENCINTO8.LE` (rule R84). -/
def execEncinto8Le (s : State) : Host.Outcome State Fault Refusal :=
  encInto Config.hardware.strictBounds .w8 .little s

/-- `ENCINTO8.BE` (rule R85). -/
def execEncinto8Be (s : State) : Host.Outcome State Fault Refusal :=
  encInto Config.hardware.strictBounds .w8 .big s

/-- `ENCINTO16.LE` (rule R86). -/
def execEncinto16Le (s : State) : Host.Outcome State Fault Refusal :=
  encInto Config.hardware.strictBounds .w16 .little s

/-- `ENCINTO16.BE` (rule R87). -/
def execEncinto16Be (s : State) : Host.Outcome State Fault Refusal :=
  encInto Config.hardware.strictBounds .w16 .big s

/-- `ENCINTO32.LE` (rule R88). -/
def execEncinto32Le (s : State) : Host.Outcome State Fault Refusal :=
  encInto Config.hardware.strictBounds .w32 .little s

/-- `ENCINTO32.BE` (rule R89). -/
def execEncinto32Be (s : State) : Host.Outcome State Fault Refusal :=
  encInto Config.hardware.strictBounds .w32 .big s

/-- `ENCINTO64.LE` (rule R90). -/
def execEncinto64Le (s : State) : Host.Outcome State Fault Refusal :=
  encInto Config.hardware.strictBounds .w64 .little s

/-- `ENCINTO64.BE` (rule R91). -/
def execEncinto64Be (s : State) : Host.Outcome State Fault Refusal :=
  encInto Config.hardware.strictBounds .w64 .big s

end Sys2Proof.Machine
end

