-- ==== Sys2Proof/Machine/EncNew.lean ====
section
/-! DEFINITION. EncNew: the ENCNEW family (rules R67 to R77). -/

namespace Sys2Proof.Machine

/-- What every ENCNEW command does (rules R67, R68): respond with the W bytes. No bounds check, no buffer access, no
failure, whatever OFFSET and LEN carry and whatever STRICT_BOUNDS is. -/
def encNew (w : Width) (o : Order) (s : State) : Host.Outcome State Fault Refusal :=
  .next (respond (.new (bytes (valueOperand w s) w o)) s)

/-- `ENCNEW8.LE` (rule R70). -/
def execEncnew8Le (s : State) : Host.Outcome State Fault Refusal :=
  encNew .w8 .little s

/-- `ENCNEW8.BE` (rule R71). -/
def execEncnew8Be (s : State) : Host.Outcome State Fault Refusal :=
  encNew .w8 .big s

/-- `ENCNEW16.LE` (rule R72). -/
def execEncnew16Le (s : State) : Host.Outcome State Fault Refusal :=
  encNew .w16 .little s

/-- `ENCNEW16.BE` (rule R73). -/
def execEncnew16Be (s : State) : Host.Outcome State Fault Refusal :=
  encNew .w16 .big s

/-- `ENCNEW32.LE` (rule R74). -/
def execEncnew32Le (s : State) : Host.Outcome State Fault Refusal :=
  encNew .w32 .little s

/-- `ENCNEW32.BE` (rule R75). -/
def execEncnew32Be (s : State) : Host.Outcome State Fault Refusal :=
  encNew .w32 .big s

/-- `ENCNEW64.LE` (rule R76). -/
def execEncnew64Le (s : State) : Host.Outcome State Fault Refusal :=
  encNew .w64 .little s

/-- `ENCNEW64.BE` (rule R77). -/
def execEncnew64Be (s : State) : Host.Outcome State Fault Refusal :=
  encNew .w64 .big s

end Sys2Proof.Machine
end

