-- ==== Sys2Proof/Machine/Dispatch.lean ====
section
/-! DEFINITION. Dispatch: one arm per command of rule R58, in the order of the command word. -/

namespace Sys2Proof.Machine

def exec (i : Instr) (s : State) : Host.Outcome State Fault Refusal :=
  match i with
  | .encnew8Le => Sys2Proof.Machine.execEncnew8Le s
  | .encnew16Le => Sys2Proof.Machine.execEncnew16Le s
  | .encnew32Le => Sys2Proof.Machine.execEncnew32Le s
  | .encnew64Le => Sys2Proof.Machine.execEncnew64Le s
  | .encnew8Be => Sys2Proof.Machine.execEncnew8Be s
  | .encnew16Be => Sys2Proof.Machine.execEncnew16Be s
  | .encnew32Be => Sys2Proof.Machine.execEncnew32Be s
  | .encnew64Be => Sys2Proof.Machine.execEncnew64Be s
  | .encinto8Le => Sys2Proof.Machine.execEncinto8Le s
  | .encinto16Le => Sys2Proof.Machine.execEncinto16Le s
  | .encinto32Le => Sys2Proof.Machine.execEncinto32Le s
  | .encinto64Le => Sys2Proof.Machine.execEncinto64Le s
  | .encinto8Be => Sys2Proof.Machine.execEncinto8Be s
  | .encinto16Be => Sys2Proof.Machine.execEncinto16Be s
  | .encinto32Be => Sys2Proof.Machine.execEncinto32Be s
  | .encinto64Be => Sys2Proof.Machine.execEncinto64Be s

end Sys2Proof.Machine
end

