-- ==== Sys2Proof/Machine/Sequencer.lean ====
section
/-! DEFINITION. Sequencer: the host's side of a step (rules R10, R15, R103, R109): what is issued next, what is done with
the response, and when the reference sequencer stops. -/

namespace Sys2Proof.Machine

/-- The reference sequencer has stopped: it stops at the first `err` of a run and issues nothing after it (rule R103). -/
def hasStopped (s : State) : Bool := s.faulted && s.policy == .stopAtError

/-- The host takes the next command off its script and drives the input ports with it; the block samples them once, at
this step (rule R118). -/
def presentCommand (c : Command) (rest : List HostEvent) (s : State) : State :=
  { s with ports := c, script := rest }

/-- The host looks at STATUS (rule R116): an `err` makes the run faulted, and it stays so (rule R103, D11). -/
def receive (s : State) : State := { s with faulted := s.faulted || isErr s.response }

/-- Run the command on the ports: decode CMD and execute. -/
def runPorts (s : State) : Host.Outcome State Fault Refusal := exec s.ports.instr s

/-- One issued command, from the ports to the received response. -/
def issueCommand (c : Command) (rest : List HostEvent) (s : State) : Host.Outcome State Fault Refusal :=
  mapNext receive (runPorts (presentCommand c rest s))

/-- Another writer's bytes land unordered with the command just executed: at a shared position either byte, by a free
choice of its own; elsewhere the other writer's (rule R49; U2). The race is counted, so that the next one draws afresh. -/
def landRacing (other : Memory) (s : State) : State :=
  { s with
    buffer := Memory.overlayRacing (Config.raceWinner s.raceTick) s.ports.offset (countWritten s.response) s.buffer other
    raceTick := s.raceTick + 1 }

/-- One command issued while another writer is not serialised with it (rules R49, R115). -/
def issueRacingCommand (c : Command) (other : Memory) (rest : List HostEvent) (s : State) :
    Host.Outcome State Fault Refusal :=
  mapNext receive (mapNext (landRacing other) (runPorts (presentCommand c rest s)))

/-- The host presents other buffer contents between commands (rule R21); no command is being answered. -/
def presentBuffer (contents : Memory) (rest : List HostEvent) (s : State) : State :=
  clearResponse { s with buffer := contents, script := rest }

/-- A reset of the block between two commands (rules R109 to R111): no response is pending afterwards, and nothing else
changes, the buffer least of all (rule R25). -/
def resetEvent (rest : List HostEvent) (s : State) : State := clearResponse { s with script := rest }

/-- The step of a host that has not stopped. With nothing left to issue the block idles (rule R26). -/
def runNextEvent (s : State) : Host.Outcome State Fault Refusal :=
  match s.script with
  | [] => .next (clearResponse s)
  | .issue c :: rest => issueCommand c rest s
  | .issueRacing c other :: rest => issueRacingCommand c other rest s
  | .present contents :: rest => .next (presentBuffer contents rest s)
  | .resetBlock :: rest => .next (resetEvent rest s)

/-- Load a host's script and buffer and begin a run: what happens from outside before a program runs (log entry 12). -/
def loadRun (script : List HostEvent) (contents : Memory) (s : State) : State :=
  { s with script := script, buffer := contents, faulted := false }

/-- Put one command in front of the script and make sure the next step issues it. Its operands are those now on the
ports (log entry 12). -/
def placeCommand (cmd : BitVec 4) (s : State) : State :=
  { s with script := .issue { s.ports with cmd := cmd } :: s.script, faulted := false }

/-- One field of a chained writer: what to write, how wide, in which order (rule R83). -/
structure ChainField where
  width : Width
  order : Order
  value : BitVec 64
  deriving DecidableEq, Repr

/-- The ENCINTO command that writes `f` at `pos` into a buffer of length `len`. -/
def ChainField.command (f : ChainField) (pos len : Nat) : Command :=
  { cmd := encode (instrOfFields true f.order f.width), value := f.value, offset := pos, len := len }

/-- The chained writer of rule R83: the host starts at `pos` and adds each width to its own position. The accumulator is
the host's. -/
def chain (len : Nat) : Nat → List ChainField → List HostEvent
  | _, [] => []
  | pos, f :: fs => .issue (f.command pos len) :: chain len (pos + f.width.bytes) fs

/-- `W1 + ... + Wn` (rule R83). -/
def chainLength : List ChainField → Nat
  | [] => 0
  | f :: fs => f.width.bytes + chainLength fs

/-- `bytes(V1, W1, BE1) ++ ... ++ bytes(Vn, Wn, BEn)` (rule R83). -/
def chainBytes : List ChainField → List Byte
  | [] => []
  | f :: fs => bytes (f.value.toNat % 2 ^ f.width.bits) f.width f.order ++ chainBytes fs

/-- What one command leaves in a buffer, as a function of the command and the buffer alone (rules R10, R42): the clear
form that runs are compared with. -/
def commandEffect (m : Memory) (c : Command) : Memory :=
  if c.instr.isInto ∧ c.offset + c.instr.width.bytes ≤ c.len then
    Memory.write m c.offset (bytes (c.value.toNat % 2 ^ c.instr.width.bits) c.instr.width c.instr.order)
  else m

end Sys2Proof.Machine
end

