-- ==== Sys2Proof/Machine/Step.lean ====
section
/-! DEFINITION. Step: one event of the host, or the end of a faulted run. -/

namespace Sys2Proof.Machine

/-- One step: the next event of the host's script. After an `err` the reference sequencer issues nothing, and the run has
ended in the fault (rule R103, U9; log entry 8). -/
def step (s : State) : Host.Outcome State Fault Refusal :=
  if hasStopped s then .fault .bufferOverflowError else runNextEvent s

/-- The command word `w` is presented to the block at the next step, with the operands the ports now carry (log entry
12). The command is not stored in any memory (rules R15, R52). -/
def State.withFetchWord (s : State) (_nbits w : Nat) : State := placeCommand (BitVec.ofNat 4 w) s

end Sys2Proof.Machine
end

