-- ==== Sys2Proof/Machine/Assembler.lean ====
section
/-! DEFINITION. Assembler: the assembler syntax of rule R64 and the pseudo-forms of rule R65, which carry D00's default
arguments. It runs on the host; the block sees only the expanded commands. -/

namespace Sys2Proof.Machine

/-- A source line (rules R64, R65). A missing order or offset is a pseudo-form. -/
inductive AsmLine where
  /-- `.buf L`: the buffer presented to the following commands has length L. -/
  | buf (len : Nat)
  /-- `ENCNEW<bits>[.<ord>] value`. -/
  | encnew (width : Width) (order : Option Order) (value : Nat)
  /-- `ENCINTO<bits>[.<ord>] value[, offset]`. -/
  | encinto (width : Width) (order : Option Order) (value : Nat) (offset : Option Nat)
  deriving DecidableEq, Repr

/-- Why the assembler rejects a line. -/
inductive AsmError where
  /-- The value is not less than `2^bits` (rule R64). -/
  | valueTooLarge
  /-- The offset is not less than `2^ADDR_BITS` (rule R64). -/
  | offsetTooLarge
  /-- The `.buf` length is not less than `2^ADDR_BITS` (rule R28; log entry 19). -/
  | lengthTooLarge
  /-- The text is no line of the syntax (log entry 19). -/
  | notALine
  deriving DecidableEq, Repr

/-- Does the value literal fit its width (rule R64)? -/
def valueFits (w : Width) (v : Nat) : Bool := v < 2 ^ w.bits

/-- The order when software omits the flag is big-endian (rules R39, R65). -/
def defaultOrder (o : Option Order) : Order := o.getD .big

/-- The offset when software omits it is 0 (rule R65). -/
def defaultOffset (off : Option Nat) : Nat := off.getD 0

/-- One line under the current `.buf` length: the new length, and the command if the line is one (rules R64, R65). For
ENCNEW the assembler drives `OFFSET = 0` and `LEN = 0`. -/
def assembleLine (cfg : Config) (len : Nat) : AsmLine → Except AsmError (Nat × Option Command)
  | .buf l => if l < 2 ^ cfg.addrBits then .ok (l, none) else .error .lengthTooLarge
  | .encnew w o v =>
    if valueFits w v then
      .ok (len, some ⟨encode (instrOfFields false (defaultOrder o) w), BitVec.ofNat 64 v, 0, 0⟩)
    else .error .valueTooLarge
  | .encinto w o v off =>
    if valueFits w v then
      if defaultOffset off < 2 ^ cfg.addrBits then
        .ok (len, some ⟨encode (instrOfFields true (defaultOrder o) w), BitVec.ofNat 64 v, defaultOffset off, len⟩)
      else .error .offsetTooLarge
    else .error .valueTooLarge

/-- A program, one line after another; `len` is the length in force before it. -/
def assemble (cfg : Config) : Nat → List AsmLine → Except AsmError (List Command)
  | _, [] => .ok []
  | len, line :: lines =>
    match assembleLine cfg len line with
    | .error e => .error e
    | .ok (len', none) => assemble cfg len' lines
    | .ok (len', some c) =>
      match assemble cfg len' lines with
      | .error e => .error e
      | .ok cs => .ok (c :: cs)

/-- `;` starts a comment (rule R64). -/
def dropComment : List Char → List Char
  | [] => []
  | c :: cs => if c = ';' then [] else c :: dropComment cs

/-- Is it a space or a tab? -/
def isBlank (c : Char) : Bool := c = ' ' || c = '\t'

/-- Without the blanks in front. -/
def dropBlanks : List Char → List Char
  | [] => []
  | c :: cs => if isBlank c then dropBlanks cs else c :: cs

/-- Without the blanks around. -/
def trimBlanks (cs : List Char) : List Char := (dropBlanks (dropBlanks cs).reverse).reverse

/-- The text before and after the first character that `stop` accepts; that character is dropped. -/
def splitAtFirst (stop : Char → Bool) : List Char → List Char × Option (List Char)
  | [] => ([], none)
  | c :: cs => if stop c then ([], some cs) else ((splitAtFirst stop cs).1.cons c, (splitAtFirst stop cs).2)

/-- A digit of the literals of rule R64, below `base`. -/
def digitValue (base : Nat) (c : Char) : Option Nat :=
  let n := c.toNat
  let d := if 48 ≤ n ∧ n ≤ 57 then n - 48 else if 65 ≤ n ∧ n ≤ 70 then n - 55 else if 97 ≤ n ∧ n ≤ 102 then n - 87 else 16
  if d < base then some d else none

/-- The digits of a number, the most significant first. -/
def digitsValue (base acc : Nat) : List Char → Option Nat
  | [] => some acc
  | c :: cs => (digitValue base c).bind fun d => digitsValue base (acc * base + d) cs

/-- A literal: hexadecimal `0x...` or decimal (rule R64). -/
def parseLiteral : List Char → Option Nat
  | [] => none
  | ['0', 'x'] => none
  | '0' :: 'x' :: cs => digitsValue 16 0 cs
  | c :: cs => digitsValue 10 0 (c :: cs)

/-- `<bits>[.<ord>]`, what follows the family name of a mnemonic (rules R64, R65). -/
def parseSelector (cs : List Char) : Option (Width × Option Order) :=
  let parts := splitAtFirst (· = '.') cs
  let width : Option Width :=
    match parts.1 with
    | ['8'] => some .w8
    | ['1', '6'] => some .w16
    | ['3', '2'] => some .w32
    | ['6', '4'] => some .w64
    | _ => none
  let order : Option (Option Order) :=
    match parts.2 with
    | none => some none
    | some ['L', 'E'] => some (some .little)
    | some ['B', 'E'] => some (some .big)
    | some _ => none
  width.bind fun w => order.map fun o => (w, o)

/-- The operands of a line, by the first word of it (rules R64, R65). -/
def parseOperands (word rest : List Char) : Option AsmLine :=
  match word with
  | ['.', 'b', 'u', 'f'] => (parseLiteral (trimBlanks rest)).map .buf
  | 'E' :: 'N' :: 'C' :: 'N' :: 'E' :: 'W' :: sel =>
    (parseSelector sel).bind fun wo => (parseLiteral (trimBlanks rest)).map fun v => .encnew wo.1 wo.2 v
  | 'E' :: 'N' :: 'C' :: 'I' :: 'N' :: 'T' :: 'O' :: sel =>
    (parseSelector sel).bind fun wo =>
      let operands := splitAtFirst (· = ',') rest
      (parseLiteral (trimBlanks operands.1)).bind fun v =>
        match operands.2 with
        | none => some (.encinto wo.1 wo.2 v none)
        | some off => (parseLiteral (trimBlanks off)).map fun n => .encinto wo.1 wo.2 v (some n)
  | _ => none

/-- A line of source text: nothing on a blank or comment line, else a line of the syntax (rule R64; log entry 19). -/
def parseLine (text : String) : Except AsmError (Option AsmLine) :=
  match trimBlanks (dropComment text.toList) with
  | [] => .ok none
  | c :: cs =>
    let parts := splitAtFirst isBlank (c :: cs)
    match parseOperands parts.1 (parts.2.getD []) with
    | some line => .ok (some line)
    | none => .error .notALine

/-- The lines of a source text. -/
def parseLines : List String → Except AsmError (List AsmLine)
  | [] => .ok []
  | text :: texts =>
    match parseLine text, parseLines texts with
    | .error e, _ => .error e
    | .ok _, .error e => .error e
    | .ok none, .ok lines => .ok lines
    | .ok (some line), .ok lines => .ok (line :: lines)

/-- Source text to commands; before any `.buf` the presented buffer is empty (log entry 19). -/
def assembleText (cfg : Config) (texts : List String) : Except AsmError (List Command) :=
  match parseLines texts with
  | .error e => .error e
  | .ok lines => assemble cfg 0 lines

end Sys2Proof.Machine
end

