-- ==== Sys2Proof/Machine/Platform.lean ====
section
/-! DEFINITION. Platform: as many FWC instances as the configuration says, and the buffers their hosts point them at
(rules R27, R49, R108). -/

namespace Sys2Proof.Machine

/-- One instance as its host sees it: its input ports and the response it gives. It has no identifier and keeps nothing
else (rules R13, R108). -/
structure Block where
  ports : Command
  response : Option Response
  deriving DecidableEq, Repr

/-- The instances of a platform, and the buffers of their hosts. Two instances have nothing in common but a buffer that
both are pointed at (rule R108). -/
structure Platform where
  blocks : List Block
  buffers : List Memory
  deriving DecidableEq, Repr

/-- An instance right after reset, before its first command (rules R24, R26; log entry 1). -/
def Block.reset : Block := { ports := State.reset.ports, response := State.reset.response }

/-- A platform right after reset: `cfg.instances` instances, and the hosts' buffers, which a reset does not touch (rules
R25, R27). -/
def Platform.reset (cfg : Config) (buffers : List Memory) : Platform :=
  { blocks := List.replicate cfg.instances Block.reset, buffers := buffers }

/-- The state of an instance at its step: the command on its ports and the presented buffer, the only inputs there are
(rule R10). -/
def stateOfCommand (c : Command) (m : Memory) : State := { State.reset with ports := c, buffer := m }

/-- What one instance makes of one command: its response and the buffer it leaves. -/
def answer (c : Command) (m : Memory) : Host.Outcome State Fault Refusal := exec c.instr (stateOfCommand c m)

/-- Instance `k` gives response `r` to `c` and leaves `m` in buffer `b`; the other instances and buffers keep theirs. -/
def Platform.update (k b : Nat) (c : Command) (r : Option Response) (m : Memory) (p : Platform) : Platform :=
  { blocks := p.blocks.set k { ports := c, response := r }, buffers := p.buffers.set b m }

/-- The host of instance `k` issues it the command `c` on buffer `b`; one step of the platform. No value when the platform
has no such instance or no such buffer. No instance waits for another (rule R108), and the hosts order their steps (rule
R115); what two that nobody orders leave is in `landRacing`. -/
def Platform.issueOn (k b : Nat) (c : Command) (p : Platform) : Option Platform :=
  match p.blocks[k]?, p.buffers[b]? with
  | some _, some m =>
    match answer c m with
    | .next t => some (p.update k b c t.response t.buffer)
    | .fault _ => none
    | .refused _ => none
  | _, _ => none

/-- The platform has the instances its configuration says, no more and no fewer, and its buffers are canonical and within
the address space. -/
def Platform.wf (cfg : Config) (p : Platform) : Bool :=
  p.blocks.length == cfg.instances && p.buffers.all fun m => Memory.wf m && Memory.within cfg m

end Sys2Proof.Machine
end

