-- ==== Sys2Proof/Safety.lean ====
section
/-! DEFINITION. Safety: what counts as a final run and as a faulted one, and the invariant every step keeps. -/

namespace Sys2Proof.Machine

/-- The run is final: every event issued, and no command answered `err` (rule R103). -/
def State.final (s : State) : Bool := s.script.isEmpty && !s.faulted

/-- A response of one of the shapes and sizes rule R22 allows: W bytes, or the count W, for W in 1, 2, 4, 8; or the
error. -/
def Response.legal : Response → Bool
  | .new bs => bs.length = 1 || bs.length = 2 || bs.length = 4 || bs.length = 8
  | .ok n => n = 1 || n = 2 || n = 4 || n = 8
  | .err .bufferOverflowError => true

/-- An event a host of a block with parameters `cfg` can perform. -/
def HostEvent.wf (cfg : Config) : HostEvent → Bool
  | .issue c => c.wf cfg
  | .issueRacing c other => c.wf cfg && Memory.wf other && Memory.within cfg other
  | .present contents => Memory.wf contents && Memory.within cfg contents
  | .resetBlock => true

/-- The invariant of a run. -/
structure State.Inv (s : State) : Prop where
  /-- The buffer keeps its canonical form. -/
  bufferWf : Memory.wf s.buffer = true
  /-- No position beyond what the ports can name is ever listed (rule R28). -/
  bufferWithin : Memory.within Config.hardware s.buffer = true
  /-- The ports carry what they can carry (rules R20, R61). -/
  portsWf : s.ports.wf Config.hardware = true
  /-- The host's script keeps to the ports and to the canonical form. -/
  scriptWf : ∀ e ∈ s.script, e.wf Config.hardware = true
  /-- The response has one of the three shapes (rule R22). -/
  responseLegal : ∀ r, s.response = some r → r.legal = true
  /-- An answered error has made the run faulted (rule R103). -/
  errFaults : isErr s.response = true → s.faulted = true

/-- `n` steps of the machine, stopping where a step gives no next state. It is the host's own run (Laws/Run.lean proves
it equal), written over State. -/
def runSteps : Nat → State → Host.Outcome State Fault Refusal
  | 0, s => .next s
  | n + 1, s =>
    match step s with
    | .next t => runSteps n t
    | .fault r => .fault r
    | .refused r => .refused r

/-- The command answers `new(bs)` and changes nothing else; the ports show STATUS 0, COUNT = len(bs), `bs` on the low
lanes of OUT and 0 on the others (rules R23, R67). -/
def AnswersNew (out : Host.Outcome State Fault Refusal) (s : State) (bs : List Byte) : Prop :=
  out = .next { s with response := some (.new bs) } ∧
  statusPort (some (.new bs)) = 0#1 ∧
  countPort (some (.new bs)) = BitVec.ofNat 4 bs.length ∧
  ∀ k, k < 8 → outLane (outPort (some (.new bs))) k = bs.getD k 0#8

/-- The command answers `ok(len(bs))` having written `bs` at OFFSET, and changes nothing else: no other position, no
other field (rules R23, R42, R82). -/
def AnswersWritten (out : Host.Outcome State Fault Refusal) (s : State) (bs : List Byte) : Prop :=
  ∃ t : State, out = .next t ∧
    t = { s with buffer := t.buffer, response := some (.ok bs.length) } ∧
    (∀ k, k < bs.length → Memory.read t.buffer (offsetOperand s + k) = bs[k]?) ∧
    (∀ a, a < offsetOperand s ∨ offsetOperand s + bs.length ≤ a → Memory.read t.buffer a = Memory.read s.buffer a) ∧
    statusPort t.response = 0#1 ∧ countPort t.response = BitVec.ofNat 4 bs.length ∧ outPort t.response = 0#64

/-- The command answers `err(BufferOverflowError)` and changes nothing else, the buffer included; the ports show STATUS
1, COUNT 0, OUT 0 (rules R23, R81). -/
def AnswersOverflow (out : Host.Outcome State Fault Refusal) (s : State) : Prop :=
  out = .next { s with response := some (.err .bufferOverflowError) } ∧
  statusPort (some (.err .bufferOverflowError)) = 1#1 ∧
  countPort (some (.err .bufferOverflowError)) = 0#4 ∧
  outPort (some (.err .bufferOverflowError)) = 0#64

/-- Issued again right after itself, the instruction changes nothing further (rule R47). -/
def Repeatable (i : Instr) (s : State) : Prop :=
  ∀ t : State, Memory.wf s.buffer = true → exec i s = .next t → exec i t = .next t

/-- The command passes the bounds check of this hardware (rule R80). -/
abbrev fitsBuffer (c : Command) : Prop := c.offset + c.instr.width.bytes ≤ c.len

end Sys2Proof.Machine
end

