-- ==== Sys2Proof/Certificates/Slice0/Obligations.lean ====
section
/-! DEFINITION. Obligations: what the provers are asked to prove, from the numbered rules of the spec. -/

open Sys2Proof Sys2Proof.Machine

/-! Encoding and fetch -/

/-- Rule R58, column CMD against column mnemonic: every word of the map decodes to the command of its row. -/
def Obligations.WordsDecodeToTheirCommands : Prop :=
  (decodeCmd 0b0000#4).mnemonic = "ENCNEW8.LE" ∧ (decodeCmd 0b0001#4).mnemonic = "ENCNEW16.LE" ∧
  (decodeCmd 0b0010#4).mnemonic = "ENCNEW32.LE" ∧ (decodeCmd 0b0011#4).mnemonic = "ENCNEW64.LE" ∧
  (decodeCmd 0b0100#4).mnemonic = "ENCNEW8.BE" ∧ (decodeCmd 0b0101#4).mnemonic = "ENCNEW16.BE" ∧
  (decodeCmd 0b0110#4).mnemonic = "ENCNEW32.BE" ∧ (decodeCmd 0b0111#4).mnemonic = "ENCNEW64.BE" ∧
  (decodeCmd 0b1000#4).mnemonic = "ENCINTO8.LE" ∧ (decodeCmd 0b1001#4).mnemonic = "ENCINTO16.LE" ∧
  (decodeCmd 0b1010#4).mnemonic = "ENCINTO32.LE" ∧ (decodeCmd 0b1011#4).mnemonic = "ENCINTO64.LE" ∧
  (decodeCmd 0b1100#4).mnemonic = "ENCINTO8.BE" ∧ (decodeCmd 0b1101#4).mnemonic = "ENCINTO16.BE" ∧
  (decodeCmd 0b1110#4).mnemonic = "ENCINTO32.BE" ∧ (decodeCmd 0b1111#4).mnemonic = "ENCINTO64.BE"

/-- Encoding and decoding are inverse to each other on all instructions and all command words (rules R58, R62). -/
def Obligations.DecodeAndEncodeAgree : Prop :=
  (∀ i : Instr, decodeCmd (encode i) = i) ∧ ∀ c : BitVec 4, encode (decodeCmd c) = c

/-- Rule R55: WSEL is CMD[1:0] and W = 2^WSEL, so 0, 1, 2, 3 select 1, 2, 4, 8 bytes and no other width exists. -/
def Obligations.WselSelectsTheWidth : Prop :=
  ∀ c : BitVec 4, (decodeCmd c).width.bytes = 2 ^ (c.extractLsb' 0 2).toNat ∧
    (decodeCmd c).width.bits = 8 * 2 ^ (c.extractLsb' 0 2).toNat

/-- Rules R56, R57: BE is CMD[2] with 1 for big-endian, INTO is CMD[3] with 1 for the ENCINTO family. -/
def Obligations.OrderAndFormBitsSelect : Prop :=
  ∀ c : BitVec 4, ((decodeCmd c).order = .big ↔ c.getLsbD 2 = true) ∧
    ((decodeCmd c).order = .little ↔ c.getLsbD 2 = false) ∧ ((decodeCmd c).isInto = c.getLsbD 3)

/-- Rule R62: all sixteen values are commands, and the two pairs of one-byte commands are redundant. -/
def Obligations.EveryCommandWordIsLegal : Prop :=
  (∀ w, w < 16 → ∃ i : Instr, decodeWord w = .ok i ∧ i.wf = true ∧ encode i = BitVec.ofNat 4 w) ∧
  (∀ s : State, exec .encnew8Le s = exec .encnew8Be s) ∧ ∀ s : State, exec .encinto8Le s = exec .encinto8Be s

/-- The step of a running host whose next event issues a command is `exec` of the instruction its word decodes to, at the
state whose ports carry the command; around it the step takes the event off the script and records an `err` (log
entries 6 and 9). -/
def Obligations.StepRunsTheDecodedCommand : Prop :=
  ∀ (s : State) (c : Command) (rest : List HostEvent), s.script = .issue c :: rest → hasStopped s = false →
    ∃ t : State, exec (decodeCmd c.cmd) { s with ports := c, script := rest } = .next t ∧
      step s = .next { t with faulted := t.faulted || isErr t.response }

/-- A command word put where the next step takes its command is run by that step, with the operands on the ports
(log entry 12). -/
def Obligations.PlacedWordRunsNext : Prop :=
  ∀ (s : State) (nbits w : Nat) (i : Instr), decodeTableWord nbits w = some i →
    ∃ t : State,
      exec i { s with ports := { s.ports with cmd := BitVec.ofNat 4 w }, faulted := false } = .next t ∧
      step (s.withFetchWord nbits w) = .next { t with faulted := isErr t.response }

/-! The ENCNEW family -/

/-- Rules R70, R71. -/
def Obligations.Encnew8ReturnsTheByte : Prop :=
  decodeCmd 0x0#4 = .encnew8Le ∧ decodeCmd 0x4#4 = .encnew8Be ∧
  ∀ s : State,
    AnswersNew (exec .encnew8Le s) s [s.ports.value.extractLsb' 0 8] ∧
    AnswersNew (exec .encnew8Be s) s [s.ports.value.extractLsb' 0 8]

/-- Rules R72, R73. -/
def Obligations.Encnew16ReturnsTwoBytes : Prop :=
  decodeCmd 0x1#4 = .encnew16Le ∧ decodeCmd 0x5#4 = .encnew16Be ∧
  ∀ s : State,
    AnswersNew (exec .encnew16Le s) s [s.ports.value.extractLsb' 0 8, s.ports.value.extractLsb' 8 8] ∧
    AnswersNew (exec .encnew16Be s) s [s.ports.value.extractLsb' 8 8, s.ports.value.extractLsb' 0 8]

/-- Rules R74, R75. -/
def Obligations.Encnew32ReturnsFourBytes : Prop :=
  decodeCmd 0x2#4 = .encnew32Le ∧ decodeCmd 0x6#4 = .encnew32Be ∧
  ∀ s : State,
    AnswersNew (exec .encnew32Le s) s [s.ports.value.extractLsb' 0 8, s.ports.value.extractLsb' 8 8,
      s.ports.value.extractLsb' 16 8, s.ports.value.extractLsb' 24 8] ∧
    AnswersNew (exec .encnew32Be s) s [s.ports.value.extractLsb' 24 8, s.ports.value.extractLsb' 16 8,
      s.ports.value.extractLsb' 8 8, s.ports.value.extractLsb' 0 8]

/-- Rules R76, R77. -/
def Obligations.Encnew64ReturnsEightBytes : Prop :=
  decodeCmd 0x3#4 = .encnew64Le ∧ decodeCmd 0x7#4 = .encnew64Be ∧
  ∀ s : State,
    AnswersNew (exec .encnew64Le s) s [s.ports.value.extractLsb' 0 8, s.ports.value.extractLsb' 8 8,
      s.ports.value.extractLsb' 16 8, s.ports.value.extractLsb' 24 8, s.ports.value.extractLsb' 32 8,
      s.ports.value.extractLsb' 40 8, s.ports.value.extractLsb' 48 8, s.ports.value.extractLsb' 56 8] ∧
    AnswersNew (exec .encnew64Be s) s [s.ports.value.extractLsb' 56 8, s.ports.value.extractLsb' 48 8,
      s.ports.value.extractLsb' 40 8, s.ports.value.extractLsb' 32 8, s.ports.value.extractLsb' 24 8,
      s.ports.value.extractLsb' 16 8, s.ports.value.extractLsb' 8 8, s.ports.value.extractLsb' 0 8]

/-- Rules R45, R68: an ENCNEW command answers the same `new(bs)` whatever OFFSET, LEN and the buffer are, and leaves the
buffer as it was. -/
def Obligations.EncnewIgnoresOffsetLenAndBuffer : Prop :=
  ∀ (i : Instr) (s : State) (off len : Nat) (m : Memory), i.isInto = false →
    ∃ bs : List Byte, exec i s = .next { s with response := some (.new bs) } ∧
      exec i { s with ports := { s.ports with offset := off, len := len }, buffer := m } =
        .next { s with ports := { s.ports with offset := off, len := len }, buffer := m, response := some (.new bs) }

/-- Rule R69: what an ENCNEW command returns is what the ENCINTO command of the same width and order, which succeeds,
leaves in a buffer of exactly W bytes at offset 0; under STRICT_BOUNDS = 1 that ENCINTO fails. -/
def Obligations.EncnewEqualsEncintoIntoExactBuffer : Prop :=
  ∀ (i j : Instr) (s : State), i.isInto = false → j.isInto = true → i.width = j.width → i.order = j.order →
    s.ports.offset = 0 → s.ports.len = i.width.bytes →
    ∃ (bs : List Byte) (t u : State), exec i s = .next t ∧ t.response = some (.new bs) ∧ bs.length = i.width.bytes ∧
      exec j s = .next u ∧ u.response = some (.ok i.width.bytes) ∧
      Memory.contents u.buffer i.width.bytes = bs.map some ∧
      encInto true j.width j.order s = .next { s with response := some (.err .bufferOverflowError) }

/-! The ENCINTO family -/

/-- Rules R84, R85, each with its success, its failure, its STRICT_BOUNDS = 1 corner and its repetition. -/
def Obligations.Encinto8WritesTheByte : Prop :=
  decodeCmd 0x8#4 = .encinto8Le ∧ decodeCmd 0xC#4 = .encinto8Be ∧
  ∀ s : State,
    (offsetOperand s + 1 ≤ lenOperand s →
      AnswersWritten (exec .encinto8Le s) s [s.ports.value.extractLsb' 0 8] ∧
      AnswersWritten (exec .encinto8Be s) s [s.ports.value.extractLsb' 0 8]) ∧
    (lenOperand s < offsetOperand s + 1 →
      AnswersOverflow (exec .encinto8Le s) s ∧ AnswersOverflow (exec .encinto8Be s) s) ∧
    (offsetOperand s + 1 < lenOperand s →
      AnswersWritten (encInto true .w8 .little s) s [s.ports.value.extractLsb' 0 8] ∧
      AnswersWritten (encInto true .w8 .big s) s [s.ports.value.extractLsb' 0 8]) ∧
    (lenOperand s ≤ offsetOperand s + 1 →
      AnswersOverflow (encInto true .w8 .little s) s ∧ AnswersOverflow (encInto true .w8 .big s) s) ∧
    Repeatable .encinto8Le s ∧ Repeatable .encinto8Be s ∧ exec .encinto8Le s = exec .encinto8Be s

/-- Rules R86, R87, each with its success, its failure, its STRICT_BOUNDS = 1 corner and its repetition. -/
def Obligations.Encinto16WritesTwoBytes : Prop :=
  decodeCmd 0x9#4 = .encinto16Le ∧ decodeCmd 0xD#4 = .encinto16Be ∧
  ∀ (s : State) (le be : List Byte),
    le = [s.ports.value.extractLsb' 0 8, s.ports.value.extractLsb' 8 8] →
    be = [s.ports.value.extractLsb' 8 8, s.ports.value.extractLsb' 0 8] →
    (offsetOperand s + 2 ≤ lenOperand s →
      AnswersWritten (exec .encinto16Le s) s le ∧ AnswersWritten (exec .encinto16Be s) s be) ∧
    (lenOperand s < offsetOperand s + 2 →
      AnswersOverflow (exec .encinto16Le s) s ∧ AnswersOverflow (exec .encinto16Be s) s) ∧
    (offsetOperand s + 2 < lenOperand s →
      AnswersWritten (encInto true .w16 .little s) s le ∧ AnswersWritten (encInto true .w16 .big s) s be) ∧
    (lenOperand s ≤ offsetOperand s + 2 →
      AnswersOverflow (encInto true .w16 .little s) s ∧ AnswersOverflow (encInto true .w16 .big s) s) ∧
    Repeatable .encinto16Le s ∧ Repeatable .encinto16Be s

/-- Rules R88, R89, each with its success, its failure, its STRICT_BOUNDS = 1 corner and its repetition. -/
def Obligations.Encinto32WritesFourBytes : Prop :=
  decodeCmd 0xA#4 = .encinto32Le ∧ decodeCmd 0xE#4 = .encinto32Be ∧
  ∀ (s : State) (le be : List Byte),
    le = [s.ports.value.extractLsb' 0 8, s.ports.value.extractLsb' 8 8, s.ports.value.extractLsb' 16 8,
      s.ports.value.extractLsb' 24 8] →
    be = [s.ports.value.extractLsb' 24 8, s.ports.value.extractLsb' 16 8, s.ports.value.extractLsb' 8 8,
      s.ports.value.extractLsb' 0 8] →
    (offsetOperand s + 4 ≤ lenOperand s →
      AnswersWritten (exec .encinto32Le s) s le ∧ AnswersWritten (exec .encinto32Be s) s be) ∧
    (lenOperand s < offsetOperand s + 4 →
      AnswersOverflow (exec .encinto32Le s) s ∧ AnswersOverflow (exec .encinto32Be s) s) ∧
    (offsetOperand s + 4 < lenOperand s →
      AnswersWritten (encInto true .w32 .little s) s le ∧ AnswersWritten (encInto true .w32 .big s) s be) ∧
    (lenOperand s ≤ offsetOperand s + 4 →
      AnswersOverflow (encInto true .w32 .little s) s ∧ AnswersOverflow (encInto true .w32 .big s) s) ∧
    Repeatable .encinto32Le s ∧ Repeatable .encinto32Be s

/-- Rules R90, R91, each with its success, its failure, its STRICT_BOUNDS = 1 corner and its repetition. -/
def Obligations.Encinto64WritesEightBytes : Prop :=
  decodeCmd 0xB#4 = .encinto64Le ∧ decodeCmd 0xF#4 = .encinto64Be ∧
  ∀ (s : State) (le be : List Byte),
    le = [s.ports.value.extractLsb' 0 8, s.ports.value.extractLsb' 8 8, s.ports.value.extractLsb' 16 8,
      s.ports.value.extractLsb' 24 8, s.ports.value.extractLsb' 32 8, s.ports.value.extractLsb' 40 8,
      s.ports.value.extractLsb' 48 8, s.ports.value.extractLsb' 56 8] →
    be = [s.ports.value.extractLsb' 56 8, s.ports.value.extractLsb' 48 8, s.ports.value.extractLsb' 40 8,
      s.ports.value.extractLsb' 32 8, s.ports.value.extractLsb' 24 8, s.ports.value.extractLsb' 16 8,
      s.ports.value.extractLsb' 8 8, s.ports.value.extractLsb' 0 8] →
    (offsetOperand s + 8 ≤ lenOperand s →
      AnswersWritten (exec .encinto64Le s) s le ∧ AnswersWritten (exec .encinto64Be s) s be) ∧
    (lenOperand s < offsetOperand s + 8 →
      AnswersOverflow (exec .encinto64Le s) s ∧ AnswersOverflow (exec .encinto64Be s) s) ∧
    (offsetOperand s + 8 < lenOperand s →
      AnswersWritten (encInto true .w64 .little s) s le ∧ AnswersWritten (encInto true .w64 .big s) s be) ∧
    (lenOperand s ≤ offsetOperand s + 8 →
      AnswersOverflow (encInto true .w64 .little s) s ∧ AnswersOverflow (encInto true .w64 .big s) s) ∧
    Repeatable .encinto64Le s ∧ Repeatable .encinto64Be s

/-- Law L-7: seen as a sequence of LEN bytes, the buffer after an ENCINTO command is the bytes before OFFSET, the W bytes
of the value, and the bytes from OFFSET + W on; or, when they do not fit, the old buffer. -/
def Obligations.BufferAfterEncinto : Prop :=
  ∀ (i : Instr) (s : State), i.isInto = true →
    ∃ t : State, exec i s = .next t ∧
      (offsetOperand s + i.width.bytes ≤ lenOperand s →
        Memory.contents t.buffer (lenOperand s) =
          (Memory.contents s.buffer (lenOperand s)).take (offsetOperand s) ++
            (bytes (valueOperand i.width s) i.width i.order).map some ++
            (Memory.contents s.buffer (lenOperand s)).drop (offsetOperand s + i.width.bytes)) ∧
      (lenOperand s < offsetOperand s + i.width.bytes → t.buffer = s.buffer)

/-! Byte order -/

/-- Rule R33: the shift amounts, their range, and the byte of V that each lane selects. -/
def Obligations.LaneSelectsAByteOfTheValue : Prop :=
  (∀ (w : Width) (o : Order) (k : Nat), k < w.bytes →
    sh w .big k = 8 * (w.bytes - 1 - k) ∧ sh w .little k = 8 * k ∧
    sh w o k ∈ [0, 8, 16, 24, 32, 40, 48, 56] ∧ sh w o k ≤ 8 * (w.bytes - 1) ∧ sh w o k < 8 * w.bytes) ∧
  (∀ (v : Nat) (w : Width) (o : Order) (k : Nat), (lane v w o k).toNat = v / 2 ^ sh w o k % 256) ∧
  ∀ (v : BitVec 64) (w : Width) (k : Nat), k < w.bytes →
    lane v.toNat w .big k = v.extractLsb' (8 * (w.bytes - 1 - k)) 8 ∧
    lane v.toNat w .little k = v.extractLsb' (8 * k) 8

/-- Rules R35, R36: significance falls with the position in big-endian order and rises in little-endian order, the high
byte V[8W-1:8W-8] at one end and V[7:0] at the other; with D00's two examples. -/
def Obligations.OrdersPutTheHighByteAtOppositeEnds : Prop :=
  (∀ (v : BitVec 64) (w : Width),
    (bytes v.toNat w .big)[0]? = some (v.extractLsb' (w.bits - 8) 8) ∧
    (bytes v.toNat w .big)[w.bytes - 1]? = some (v.extractLsb' 0 8) ∧
    (bytes v.toNat w .little)[0]? = some (v.extractLsb' 0 8) ∧
    (bytes v.toNat w .little)[w.bytes - 1]? = some (v.extractLsb' (w.bits - 8) 8) ∧
    ∀ k, k < w.bytes →
      (bytes v.toNat w .big)[k]? = some (v.extractLsb' (w.bits - 8 * (k + 1)) 8) ∧
      (bytes v.toNat w .little)[k]? = some (v.extractLsb' (8 * k) 8)) ∧
  bytes 0x01020304 .w32 .big = [0x01#8, 0x02#8, 0x03#8, 0x04#8] ∧
  bytes 0x01020304 .w32 .little = [0x04#8, 0x03#8, 0x02#8, 0x01#8]

/-- Rule R37: for W = 1 the shift is 0 in both orders, the byte is the value's low 8 bits, and both values of the order
bit are legal. -/
def Obligations.OneByteHasNoOrder : Prop :=
  decodeCmd 0b0000#4 = .encnew8Le ∧ decodeCmd 0b0100#4 = .encnew8Be ∧
  decodeCmd 0b1000#4 = .encinto8Le ∧ decodeCmd 0b1100#4 = .encinto8Be ∧
  sh .w8 .big 0 = 0 ∧ sh .w8 .little 0 = 0 ∧
  ∀ v : Nat, bytes v .w8 .big = [BitVec.ofNat 8 (v % 256)] ∧ bytes v .w8 .little = [BitVec.ofNat 8 (v % 256)]

/-- Rule R38: little-endian is the identity wiring of the W lanes and big-endian is the reversal of the W lanes; the bytes carry the low 8W bits of V exactly, and no other
bit; the function is injective on values of the width. -/
def Obligations.BytesAreALanePermutation : Prop :=
  (∀ (v : Nat) (w : Width) (k : Nat), k < w.bytes → (lane v w .little k).toNat = v / 2 ^ (8 * k) % 256 ∧
    lane v w .big k = lane v w .little (w.bytes - 1 - k)) ∧
  (∀ (v : Nat) (w : Width), bytes v w .big = (bytes v w .little).reverse) ∧
  (∀ (v : Nat) (w : Width),
    ((List.range w.bytes).map fun k => (lane v w .little k).toNat * 2 ^ (8 * k)).sum = v % 2 ^ w.bits ∧
    ((List.range w.bytes).map fun k => (lane v w .big k).toNat * 2 ^ (8 * (w.bytes - 1 - k))).sum =
      v % 2 ^ w.bits) ∧
  (∀ (v : Nat) (w : Width) (o : Order), bytes v w o = bytes (v % 2 ^ w.bits) w o) ∧
  ∀ (v v' : Nat) (w : Width) (o : Order), bytes v w o = bytes v' w o → v % 2 ^ w.bits = v' % 2 ^ w.bits

/-- Law L-1, D00's round trip stated of the mathematical inverse, which is no operation of the hardware (rule R4). -/
def Obligations.DecodeRefInvertsBytes : Prop :=
  ∀ (v : Nat) (w : Width) (o : Order),
    decodeRef (bytes v w o) o = v % 2 ^ w.bits ∧ (v < 2 ^ w.bits → decodeRef (bytes v w o) o = v)

/-- Law L-5: reading a little-endian result as big-endian is the endian swap, and swapping twice gives the value back. -/
def Obligations.EndianSwapTwiceIsIdentity : Prop :=
  (∀ (v : Nat) (w : Width), v < 2 ^ w.bits →
    decodeRef (bytes v w .little) .big < 2 ^ w.bits ∧
    decodeRef (bytes (decodeRef (bytes v w .little) .big) w .little) .big = v) ∧
  decodeRef (bytes 0x01020304 .w32 .little) .big = 0x04030201

/-- Law L-6: a wide encoding is two encodings of half the width, the high half first in big-endian order and last in
little-endian order. -/
def Obligations.WideBytesAreTwoHalves : Prop :=
  ∀ (v : Nat) (w h : Width), w.bytes = 2 * h.bytes →
    bytes v w .big = bytes (v / 2 ^ h.bits) h .big ++ bytes (v % 2 ^ h.bits) h .big ∧
    bytes v w .little = bytes (v % 2 ^ h.bits) h .little ++ bytes (v / 2 ^ h.bits) h .little

/-- Rule R60: VALUE[63:8W] may hold anything; only VALUE[8W-1:0] counts. -/
def Obligations.UpperValueBitsAreIgnored : Prop :=
  ∀ (i : Instr) (s : State) (v : BitVec 64),
    v.toNat % 2 ^ i.width.bits = s.ports.value.toNat % 2 ^ i.width.bits →
    ∃ t : State, exec i s = .next t ∧
      exec i { s with ports := { s.ports with value := v } } =
        .next { t with ports := { s.ports with value := v } }

/-! The bounds check -/

/-- Rule R80: the predicate for both policies, which policy this hardware has, and the four consequences. -/
def Obligations.BoundsPredicateIsExact : Prop :=
  Config.hardware.strictBounds = false ∧
  (∀ off w l : Nat, (overflow false off w l = true ↔ off + w > l) ∧ (overflow true off w l = true ↔ off + w ≥ l)) ∧
  (∀ off w l : Nat, overflow false off w l = false ↔ off + w ≤ l) ∧
  (∀ off w l : Nat, l < w → overflow false off w l = true) ∧
  (∀ off w l : Nat, w ≤ l → (overflow false off w l = false ↔ off ≤ l - w) ∧
    overflow false (l - w) w l = false ∧ overflow false (l - w + 1) w l = true) ∧
  (∀ off w l : Nat, (w < l → (overflow true off w l = false ↔ off ≤ l - w - 1)) ∧
    (l ≤ w → overflow true off w l = true)) ∧
  ∀ (i j : Instr) (s t u : State) (v : BitVec 64), i.isInto = true → j.isInto = true → i.width = j.width →
    exec i s = .next t → exec j { s with ports := { s.ports with value := v } } = .next u →
    isErr t.response = isErr u.response

/-- Rule R79: at every port width from 4 up the sum held in one bit more is exact, lies between 1 and 2^ADDR_BITS + 7 and
is compared with the extended LEN; a sum held in ADDR_BITS bits would turn the last offset plus 8 into 7. -/
def Obligations.BoundsSumNeverWraps : Prop :=
  ∀ (n : Nat), 4 ≤ n →
    (∀ (off : BitVec n) (w : Width), (boundsSum off w).toNat = off.toNat + w.bytes ∧
      1 ≤ (boundsSum off w).toNat ∧ (boundsSum off w).toNat ≤ 2 ^ n + 7) ∧
    (∀ (off len : BitVec n) (w : Width), boundsCheck false off len w = true ↔
      (len.setWidth (n + 1)).toNat < (boundsSum off w).toNat) ∧
    (BitVec.allOnes n + BitVec.ofNat n Width.w64.bytes).toNat = 7

/-- The check an implementation builds, for every port width from 4 up and either policy, is the predicate the meanings
use (rules R61, R79, R80). -/
def Obligations.BoundsCheckMeetsThePredicate : Prop :=
  ∀ (n : Nat) (strict : Bool) (off len : BitVec n) (w : Width), 4 ≤ n →
    boundsCheck strict off len w = overflow strict off.toNat w.bytes len.toNat

/-! The response and the error -/

/-- Rule R22: every command gets exactly one response, of the shape its family and its bounds check give. -/
def Obligations.EveryCommandAnswersWithItsShape : Prop :=
  ∀ (i : Instr) (s : State), ∃ (t : State) (r : Response), exec i s = .next t ∧ t.response = some r ∧
    (i.isInto = false → ∃ bs : List Byte, r = .new bs ∧ bs.length = i.width.bytes) ∧
    (i.isInto = true → offsetOperand s + i.width.bytes ≤ lenOperand s → r = .ok i.width.bytes) ∧
    (i.isInto = true → lenOperand s < offsetOperand s + i.width.bytes → r = .err .bufferOverflowError)

/-- Rule R23: what the ports STATUS, COUNT and OUT show for each shape of response. -/
def Obligations.ResultPortsCarryTheResponse : Prop :=
  (∀ bs : List Byte, 1 ≤ bs.length → bs.length ≤ 8 →
    statusPort (some (.new bs)) = 0#1 ∧ (countPort (some (.new bs))).toNat = bs.length ∧
    ∀ k, k < 8 → outLane (outPort (some (.new bs))) k = if k < bs.length then bs.getD k 0#8 else 0#8) ∧
  (∀ w : Width, statusPort (some (.ok w.bytes)) = 0#1 ∧ (countPort (some (.ok w.bytes))).toNat = w.bytes ∧
    outPort (some (.ok w.bytes)) = 0#64) ∧
  statusPort (some (.err .bufferOverflowError)) = 1#1 ∧ countPort (some (.err .bufferOverflowError)) = 0#4 ∧
  outPort (some (.err .bufferOverflowError)) = 0#64

/-- Rule R26: after reset, and whenever no command is being answered, the result ports read 0. No command is being
answered when the host issues none: nothing left, a change of buffer, a reset. -/
def Obligations.ResultPortsIdleAtZero : Prop :=
  (statusPort none = 0#1 ∧ countPort none = 0#4 ∧ outPort none = 0#64) ∧ State.reset.response = none ∧
  ∀ s : State, hasStopped s = false →
    (s.script = [] → step s = .next { s with response := none }) ∧
    (∀ m rest, s.script = .present m :: rest → ∃ t : State, step s = .next t ∧ t.response = none) ∧
    ∀ rest, s.script = .resetBlock :: rest → ∃ t : State, step s = .next t ∧ t.response = none

/-- Rule R93: the error is raised by the ENCINTO instructions and no other, exactly when OFFSET + W > LEN; STATUS is 1
then and 0 otherwise. -/
def Obligations.OverflowErrorExactlyWhen : Prop :=
  ∀ (i : Instr) (s : State), ∃ t : State, exec i s = .next t ∧
    (t.response = some (.err .bufferOverflowError) ↔
      i.isInto = true ∧ offsetOperand s + i.width.bytes > lenOperand s) ∧
    (statusPort t.response = 1#1 ↔ i.isInto = true ∧ offsetOperand s + i.width.bytes > lenOperand s) ∧
    (statusPort t.response = 0#1 ↔ ¬(i.isInto = true ∧ offsetOperand s + i.width.bytes > lenOperand s))

/-- Rule R95: a failing command has had no effect on the buffer, nor on anything else but its own response. -/
def Obligations.FailingCommandChangesNothing : Prop :=
  ∀ (i : Instr) (s t : State), exec i s = .next t → isErr t.response = true →
    t = { s with response := some (.err .bufferOverflowError) }

/-- Rule R98: the error is not sticky. For a host that carries on, the command after a failed one leaves what it would
have left had the failed one never been issued; only the run-level mark of D11 (log entry 9) remembers. -/
def Obligations.ErrorIsNotSticky : Prop :=
  ∀ (s : State) (c d : Command) (rest : List HostEvent), s.policy = .carryOn →
    s.script = .issue c :: .issue d :: rest → c.instr.isInto = true → ¬fitsBuffer c →
    ∃ t : State, step { s with script := .issue d :: rest } = .next t ∧
      runSteps 2 s = .next { t with faulted := true }

/-- Rule R103: the reference sequencer stops at the first `err` and issues nothing after it; the run is faulted and not
final; the same command with the same length fails again. -/
def Obligations.ReferenceSequencerStopsAtError : Prop :=
  ∀ (s : State) (c : Command) (rest : List HostEvent), s.policy = .stopAtError → s.faulted = false →
    s.script = .issue c :: rest → c.instr.isInto = true → ¬fitsBuffer c →
    ∃ t : State, step s = .next t ∧ t.response = some (.err .bufferOverflowError) ∧ t.buffer = s.buffer ∧
      t.script = rest ∧ t.final = false ∧ exec c.instr t = .next t ∧
      ∀ n : Nat, runSteps (n + 2) s = .fault .bufferOverflowError

/-- A run that is not faulted has had no `err` response at any step (rule R103, D11; that the mark is kept at all is the
model's choice, log entry 9). -/
def Obligations.UnfaultedRunHadNoError : Prop :=
  ∀ (n : Nat) (s t : State), (isErr s.response = true → s.faulted = true) → runSteps n s = .next t →
    t.faulted = false →
    ∀ m : Nat, m ≤ n → ∃ u : State, runSteps m s = .next u ∧ u.faulted = false ∧ isErr u.response = false

/-- Once faulted, a run stays faulted, whatever the host does, resets included (the model's choice, log entry 9). -/
def Obligations.FaultedRunStaysFaulted : Prop :=
  ∀ (n : Nat) (s t : State), s.faulted = true → runSteps n s = .next t → t.faulted = true ∧ t.final = false

/-- Rule R120: every command completes in its one step. A step ends in a next state, unless the reference sequencer has
stopped; nothing is refused. -/
def Obligations.EveryStepCompletes : Prop :=
  (∀ (i : Instr) (s : State), ∃ t : State, exec i s = .next t) ∧
  ∀ s : State, (hasStopped s = true → step s = .fault .bufferOverflowError) ∧
    (hasStopped s = false → ∃ t : State, step s = .next t)

/-! The buffer -/

/-- Rules R30, R31: no command, of any kind and with any operands, changes a position at or beyond LEN, nor one outside
its own target range. -/
def Obligations.WritesStayInsideTheBuffer : Prop :=
  ∀ (i : Instr) (s t : State) (a : Nat), exec i s = .next t →
    lenOperand s ≤ a ∨ a < offsetOperand s ∨ offsetOperand s + i.width.bytes ≤ a →
    Memory.read t.buffer a = Memory.read s.buffer a

/-- Rule R43: no response and no written byte depends on what the buffer held. -/
def Obligations.BufferIsNeverRead : Prop :=
  ∀ (i : Instr) (s : State) (m : Memory), ∃ t u : State,
    exec i s = .next t ∧ exec i { s with buffer := m } = .next u ∧ u.response = t.response ∧
    ∀ a : Nat, (Memory.read t.buffer a = Memory.read s.buffer a ∧ Memory.read u.buffer a = Memory.read m a) ∨
      (i.isInto = true ∧ offsetOperand s ≤ a ∧ a < offsetOperand s + i.width.bytes ∧
        Memory.read t.buffer a = Memory.read u.buffer a)

/-- Rule R47: issuing a command again right after itself changes nothing further, and answers the same. -/
def Obligations.RepeatingACommandChangesNothing : Prop :=
  ∀ (i : Instr) (s t : State), Memory.wf s.buffer = true → exec i s = .next t → exec i t = .next t

/-- Rule R48: on one instance the buffer after a sequence of commands is what applying their writes one after another in
issue order gives. -/
def Obligations.CommandsTakeEffectInIssueOrder : Prop :=
  ∀ (s : State) (cs : List Command), s.script = cs.map .issue →
    s.policy = .carryOn ∨ (s.faulted = false ∧ ∀ c ∈ cs, c.instr.isInto = true → fitsBuffer c) →
    ∃ t : State, runSteps cs.length s = .next t ∧ t.buffer = cs.foldl commandEffect s.buffer ∧ t.script = []

/-- Rule R48: where two writes cover a common position the later command's byte stands there. -/
def Obligations.LaterWriteStands : Prop :=
  ∀ (s : State) (c d : Command) (rest : List HostEvent) (a : Nat), s.faulted = false →
    s.script = .issue c :: .issue d :: rest → c.instr.isInto = true → d.instr.isInto = true →
    fitsBuffer c → fitsBuffer d → c.offset ≤ a → a < c.offset + c.instr.width.bytes →
    ∃ t : State, runSteps 2 s = .next t ∧
      Memory.read t.buffer a =
        if d.offset ≤ a ∧ a < d.offset + d.instr.width.bytes then
          some (lane (d.value.toNat % 2 ^ d.instr.width.bits) d.instr.width d.instr.order (a - d.offset))
        else some (lane (c.value.toNat % 2 ^ c.instr.width.bits) c.instr.width c.instr.order (a - c.offset))

/-- Law L-8: two successful ENCINTO commands whose ranges share no position leave the same buffer in either order. -/
def Obligations.DisjointCommandsCommute : Prop :=
  ∀ (s : State) (c d : Command), Memory.wf s.buffer = true → s.faulted = false →
    c.instr.isInto = true → d.instr.isInto = true → fitsBuffer c → fitsBuffer d →
    c.offset + c.instr.width.bytes ≤ d.offset ∨ d.offset + d.instr.width.bytes ≤ c.offset →
    ∃ t u : State, runSteps 2 { s with script := [.issue c, .issue d] } = .next t ∧
      runSteps 2 { s with script := [.issue d, .issue c] } = .next u ∧ t.buffer = u.buffer

/-- Rule R49, the broken host duty: where a command and an unserialised other writer share positions, each shared position
holds either writer's byte, whichever way the free choice falls (log entry 11); every other position is as its only
writer, or nobody, left it. -/
def Obligations.RacingWritersLeaveEitherByte : Prop :=
  ∀ (s : State) (c : Command) (other : Memory) (rest : List HostEvent), hasStopped s = false →
    s.script = .issueRacing c other :: rest → c.instr.isInto = true → fitsBuffer c → Memory.wf other = true →
    ∃ t : State, step s = .next t ∧ t.response = some (.ok c.instr.width.bytes) ∧
      ∀ (a : Nat) (mine : Option Byte),
        mine = (if c.offset ≤ a ∧ a < c.offset + c.instr.width.bytes then
          (bytes (c.value.toNat % 2 ^ c.instr.width.bits) c.instr.width c.instr.order)[a - c.offset]? else none) →
        (Memory.read other a = none ∧ mine = none → Memory.read t.buffer a = Memory.read s.buffer a) ∧
        (Memory.read other a = none ∧ mine ≠ none → Memory.read t.buffer a = mine) ∧
        (Memory.read other a ≠ none ∧ mine = none → Memory.read t.buffer a = Memory.read other a) ∧
        (Memory.read other a ≠ none ∧ mine ≠ none →
          Memory.read t.buffer a = mine ∨ Memory.read t.buffer a = Memory.read other a)

/-- Rule R49: a command and another writer that share no position need no ordering; the buffer is the same whichever goes
first, and the same when nobody orders them. -/
def Obligations.DisjointWritersNeedNoOrder : Prop :=
  ∀ (s : State) (c : Command) (other : Memory) (rest : List HostEvent), hasStopped s = false →
    s.script = .issueRacing c other :: rest → Memory.wf s.buffer = true →
    (∀ cell ∈ other, cell.1 < c.offset ∨ c.offset + c.instr.width.bytes ≤ cell.1) →
    ∃ t u v : State, step s = .next t ∧
      step { s with script := .issue c :: rest } = .next u ∧
      step { s with script := .issue c :: rest, buffer := Memory.overlay s.buffer other } = .next v ∧
      t.buffer = Memory.overlay u.buffer other ∧ t.buffer = v.buffer ∧ t.response = u.response

/-- Rule R83: a host that adds each returned count to its position writes the fields side by side; when a field would
cross the end, that command fails and the earlier ones have been written. The script and the run-level mark are the
model's (log entries 6, 8, 9). -/
def Obligations.ChainedWritesLandSideBySide : Prop :=
  ∀ (s : State) (fs : List ChainField) (start len : Nat) (rest : List HostEvent), s.faulted = false →
    start + chainLength fs ≤ len → s.script = chain len start fs ++ rest →
    (∃ t : State, runSteps fs.length s = .next t ∧ t.faulted = false ∧ t.script = rest ∧
      ∀ a : Nat, Memory.read t.buffer a =
        if start ≤ a ∧ a < start + chainLength fs then (chainBytes fs)[a - start]? else Memory.read s.buffer a) ∧
    (∀ (k : Nat) (f : ChainField), fs[k]? = some f →
      ∃ u : State, runSteps (k + 1) s = .next u ∧ u.response = some (.ok f.width.bytes)) ∧
    ∀ (g : ChainField) (more : List HostEvent), len < start + chainLength fs + g.width.bytes →
      rest = .issue (g.command (start + chainLength fs) len) :: more →
      ∃ t u : State, runSteps fs.length s = .next t ∧ runSteps (fs.length + 1) s = .next u ∧
        u.response = some (.err .bufferOverflowError) ∧ u.faulted = true ∧ u.buffer = t.buffer

/-! The host's other events, reset, and the invariant -/

/-- Rule R109: a command after a reset gives what it would have given before it, and the reset touches no byte. -/
def Obligations.ResetChangesNoOutcome : Prop :=
  ∀ (s : State) (c : Command) (rest : List HostEvent), hasStopped s = false →
    s.script = .resetBlock :: .issue c :: rest →
    ∃ t : State, step s = .next t ∧ t.buffer = s.buffer ∧ t.response = none ∧
      step t = step { s with script := .issue c :: rest }

/-- The host may present other buffer contents between commands (rule R21; that it does so as an event of its own is the
model's choice, log entry 21): exactly those contents stand, and nothing of the block changes. -/
def Obligations.PresentedBufferStands : Prop :=
  ∀ (s : State) (m : Memory) (rest : List HostEvent), hasStopped s = false → s.script = .present m :: rest →
    step s = .next { s with buffer := m, script := rest, response := none }

/-- Rules R10, R13: the response to a command and the buffer it leaves depend on its own ports and the presented buffer
only, not on earlier responses or anything of the host's. -/
def Obligations.OutcomeDependsOnInputsOnly : Prop :=
  ∀ (i : Instr) (s t : State), s.ports = t.ports → s.buffer = t.buffer →
    ∃ u v : State, exec i s = .next u ∧ exec i t = .next v ∧ u.response = v.response ∧ u.buffer = v.buffer

/-- The invariant of Safety.lean is kept by every step: canonical buffer within the address space, ports and script
within the ports' widths, a legal response, and the run-level mark set by every error. -/
def Obligations.EveryStepKeepsTheInvariant : Prop :=
  ∀ s t : State, s.Inv → step s = .next t → t.Inv

/-- The state after reset meets the invariant; no response is pending and nothing of the buffer is stated (rules R24 to
R26; the values of the ports and of the host's fields are the model's choice, log entries 1, 6, 8, 9, 11). -/
def Obligations.ResetMeetsTheInvariant : Prop :=
  State.reset.Inv ∧ State.reset.response = none ∧ ∀ p : Nat, Memory.read State.reset.buffer p = none

/-! The assembler -/

/-- Rule R65: the four pseudo-forms expand to the full forms, for any parameters and `.buf` length. -/
def Obligations.PseudoFormsTakeTheDefaults : Prop :=
  ∀ (cfg : Config) (len : Nat) (w : Width) (o : Order) (v off : Nat),
    assembleLine cfg len (.encnew w none v) = assembleLine cfg len (.encnew w (some .big) v) ∧
    assembleLine cfg len (.encinto w none v none) = assembleLine cfg len (.encinto w (some .big) v (some 0)) ∧
    assembleLine cfg len (.encinto w none v (some off)) =
      assembleLine cfg len (.encinto w (some .big) v (some off)) ∧
    assembleLine cfg len (.encinto w (some o) v none) = assembleLine cfg len (.encinto w (some o) v (some 0))

/-- Rule R64: what the assembler drives on the ports for each form, and the value literal it rejects. -/
def Obligations.AssemblerDrivesThePorts : Prop :=
  ∀ (cfg : Config) (len : Nat) (w : Width) (o : Order) (v off : Nat),
    (v < 2 ^ w.bits →
      (∃ c : Command, assembleLine cfg len (.encnew w (some o) v) = .ok (len, some c) ∧ c.instr.isInto = false ∧
        c.instr.width = w ∧ c.instr.order = o ∧ c.value.toNat = v ∧ c.offset = 0 ∧ c.len = 0) ∧
      (off < 2 ^ cfg.addrBits →
        ∃ c : Command, assembleLine cfg len (.encinto w (some o) v (some off)) = .ok (len, some c) ∧
          c.instr.isInto = true ∧ c.instr.width = w ∧ c.instr.order = o ∧ c.value.toNat = v ∧ c.offset = off ∧
          c.len = len) ∧
      (2 ^ cfg.addrBits ≤ off →
        assembleLine cfg len (.encinto w (some o) v (some off)) = .error .offsetTooLarge)) ∧
    (2 ^ w.bits ≤ v →
      assembleLine cfg len (.encnew w (some o) v) = .error .valueTooLarge ∧
      assembleLine cfg len (.encinto w (some o) v (some off)) = .error .valueTooLarge) ∧
    (len < 2 ^ cfg.addrBits → ∀ old : Nat, assembleLine cfg old (.buf len) = .ok (len, none))

/-! The run-level mark, one step at a time -/

/-- The step lemma under the two statements about faulted runs (log entry 9): from any state in which a pending `err` has
marked the run, a step gives one in which it has; and a step into an unmarked state starts in an unmarked state and shows
no `err` before it or after it. -/
def Obligations.StepIntoUnfaultedShowsNoError : Prop :=
  ∀ s t : State, (isErr s.response = true → s.faulted = true) → step s = .next t →
    (isErr t.response = true → t.faulted = true) ∧
    (t.faulted = false → s.faulted = false ∧ isErr s.response = false ∧ isErr t.response = false)

/-! Several instances. How a platform of them is written down is the model's choice (log entry 17). -/

/-- Rules R27, R108: after reset the platform has the configured number of instances, and no command changes that number,
the canonical form of the buffers or their place in the address space; for every configuration. -/
def Obligations.InstancesAreFixed : Prop :=
  (∀ (cfg : Config) (bufs : List Memory), (∀ m ∈ bufs, Memory.wf m = true ∧ Memory.within cfg m = true) →
    Platform.wf cfg (Platform.reset cfg bufs) = true ∧ (Platform.reset cfg bufs).blocks.length = cfg.instances) ∧
  ∀ (cfg : Config) (p q : Platform) (k b : Nat) (c : Command), Platform.wf cfg p = true → c.wf cfg = true →
    p.issueOn k b c = some q → Platform.wf cfg q = true ∧ q.blocks.length = cfg.instances

/-- Rule R108: a command to any instance completes whatever the others are doing; it answers what the block answers to that
command on that buffer, and no other instance and no other buffer is touched. -/
def Obligations.InstancesShareOnlyTheBuffer : Prop :=
  ∀ (p : Platform) (k b : Nat) (c : Command) (s : State), k < p.blocks.length → p.buffers[b]? = some s.buffer →
    s.ports = c →
    ∃ (q : Platform) (t : State), p.issueOn k b c = some q ∧ exec c.instr s = .next t ∧
      q.blocks[k]? = some ⟨c, t.response⟩ ∧ q.buffers[b]? = some t.buffer ∧
      (∀ j : Nat, j ≠ k → q.blocks[j]? = p.blocks[j]?) ∧ ∀ d : Nat, d ≠ b → q.buffers[d]? = p.buffers[d]?

/-- Rules R49, R108: commands to two instances, on two buffers or on ranges of one buffer that share no position (an
ENCNEW command has no range), need no ordering: the platform is the same whichever goes first. -/
def Obligations.InstancesNeedNoOrder : Prop :=
  ∀ (p : Platform) (j k a b : Nat) (c d : Command) (m n : Memory), j ≠ k → j < p.blocks.length → k < p.blocks.length →
    p.buffers[a]? = some m → p.buffers[b]? = some n → Memory.wf m = true → Memory.wf n = true →
    a ≠ b ∨ c.instr.isInto = false ∨ d.instr.isInto = false ∨
      c.offset + c.instr.width.bytes ≤ d.offset ∨ d.offset + d.instr.width.bytes ≤ c.offset →
    ∃ u v w : Platform, p.issueOn j a c = some u ∧ p.issueOn k b d = some v ∧
      u.issueOn k b d = some w ∧ v.issueOn j a c = some w
end

