-- ==== Sys2Proof/Laws/Memory.lean ====
section
/-! SUPPORT. Memory: what each buffer operation does, said once, and that each keeps the canonical form. -/

namespace Sys2Proof.Machine

@[simp] theorem Memory.read_nil (p : Nat) : Memory.read [] p = none := rfl

/-- A write of one byte changes the one position and no other. -/
theorem Memory.read_writeByte (m : Memory) (p : Nat) (v : Byte) (q : Nat) :
    Memory.read (Memory.writeByte m p v) q = if q = p then some v else Memory.read m q := by
  induction m with
  | nil => simp only [Memory.writeByte, Memory.read, eq_comm]
  | cons cell rest ih =>
    obtain ⟨a, b⟩ := cell
    simp only [Memory.writeByte]
    split
    · next h => subst h; simp only [Memory.read, eq_comm]; split <;> rfl
    · split
      · simp only [Memory.read, eq_comm]
      · next h _ =>
        simp only [Memory.read, ih]
        by_cases hq : a = q
        · subst hq; simp [h]
        · simp [hq]

/-- `MemWrite` says what each position holds afterwards (rules R9, R42). -/
theorem Memory.read_write (m : Memory) (p : Nat) (bs : List Byte) (q : Nat) :
    Memory.read (Memory.write m p bs) q = if p ≤ q ∧ q < p + bs.length then bs[q - p]? else Memory.read m q := by
  induction bs generalizing m p with
  | nil => simp only [Memory.write, List.length_nil]; rw [if_neg (by omega)]
  | cons b bs ih =>
    rw [Memory.write, ih, Memory.read_writeByte, List.length_cons]
    by_cases hq : q = p
    · subst hq; simp
    · by_cases hin : p + 1 ≤ q ∧ q < p + 1 + bs.length
      · rw [if_pos hin, if_pos (by omega), show q - p = (q - (p + 1)) + 1 by omega, List.getElem?_cons_succ]
      · rw [if_neg hin, if_neg hq, if_neg (by omega)]

theorem Memory.read_write_outside (m : Memory) (p : Nat) (bs : List Byte) (q : Nat)
    (h : q < p ∨ p + bs.length ≤ q) : Memory.read (Memory.write m p bs) q = Memory.read m q := by
  rw [Memory.read_write, if_neg (by omega)]

theorem Memory.read_write_inside (m : Memory) (p : Nat) (bs : List Byte) (k : Nat) (h : k < bs.length) :
    Memory.read (Memory.write m p bs) (p + k) = bs[k]? := by
  rw [Memory.read_write, if_pos (by omega), Nat.add_sub_cancel_left]

/-- The canonical form of a list with a head: the tail is canonical and lies above the head. -/
theorem Memory.wf_cons (a : Nat) (b : Byte) (m : Memory) :
    Memory.wf ((a, b) :: m) = true ↔ Memory.wf m = true ∧ ∀ cell ∈ m, a < cell.1 := by
  induction m generalizing a b with
  | nil => simp [Memory.wf]
  | cons cell rest ih =>
    obtain ⟨c, d⟩ := cell
    simp only [Memory.wf, Bool.and_eq_true, decide_eq_true_eq, List.mem_cons, forall_eq_or_imp]
    rw [ih c d]
    constructor
    · rintro ⟨h1, h2, h3⟩
      exact ⟨⟨h2, h3⟩, h1, fun x hx => Nat.lt_trans h1 (h3 x hx)⟩
    · rintro ⟨⟨h1, h2⟩, h3, _⟩
      exact ⟨h3, h1, h2⟩

theorem Memory.mem_writeByte (m : Memory) (p : Nat) (v : Byte) (cell : Host.Cell)
    (h : cell ∈ Memory.writeByte m p v) : cell = (p, v) ∨ cell ∈ m := by
  induction m with
  | nil => simpa [Memory.writeByte] using h
  | cons c rest ih =>
    obtain ⟨a, b⟩ := c
    simp only [Memory.writeByte] at h
    split at h
    · rcases List.mem_cons.1 h with h | h
      · exact .inl h
      · exact .inr (List.mem_cons_of_mem _ h)
    · split at h
      · rcases List.mem_cons.1 h with h | h
        · exact .inl h
        · exact .inr h
      · rcases List.mem_cons.1 h with h | h
        · exact .inr (h ▸ List.mem_cons_self)
        · exact (ih h).imp id (List.mem_cons_of_mem _)

theorem Memory.wf_writeByte (m : Memory) (p : Nat) (v : Byte) (h : Memory.wf m = true) :
    Memory.wf (Memory.writeByte m p v) = true := by
  induction m with
  | nil => rfl
  | cons cell rest ih =>
    obtain ⟨a, b⟩ := cell
    obtain ⟨hr, ha⟩ := (Memory.wf_cons a b rest).1 h
    simp only [Memory.writeByte]
    split
    · next hap => subst hap; exact (Memory.wf_cons _ _ _).2 ⟨hr, ha⟩
    · split
      · next hpa =>
        refine (Memory.wf_cons _ _ _).2 ⟨h, fun cell hc => ?_⟩
        rcases List.mem_cons.1 hc with rfl | hc
        · exact hpa
        · exact Nat.lt_trans hpa (ha _ hc)
      · next hne hpa =>
        refine (Memory.wf_cons _ _ _).2 ⟨ih hr, fun cell hc => ?_⟩
        rcases Memory.mem_writeByte _ _ _ _ hc with rfl | hc
        · simp only; omega
        · exact ha _ hc

theorem Memory.wf_write (m : Memory) (p : Nat) (bs : List Byte) (h : Memory.wf m = true) :
    Memory.wf (Memory.write m p bs) = true := by
  induction bs generalizing m p with
  | nil => exact h
  | cons b bs ih => exact ih _ _ (Memory.wf_writeByte _ _ _ h)

theorem Memory.wf_overlay (m other : Memory) (h : Memory.wf m = true) :
    Memory.wf (Memory.overlay m other) = true := by
  induction other generalizing m with
  | nil => exact h
  | cons cell rest ih => exact ih _ (Memory.wf_writeByte _ _ _ h)

theorem Memory.wf_overlayRacing (wins : Nat → Bool) (off n : Nat) (m other : Memory) (h : Memory.wf m = true) :
    Memory.wf (Memory.overlayRacing wins off n m other) = true := by
  induction other generalizing m with
  | nil => exact h
  | cons cell rest ih =>
    obtain ⟨p, v⟩ := cell
    simp only [Memory.overlayRacing]
    split
    · exact ih _ h
    · exact ih _ (Memory.wf_writeByte _ _ _ h)

/-- Canonical contents with the same readings are the same data. -/
theorem Memory.eq_of_read_eq (m m' : Memory) (hm : Memory.wf m = true) (hm' : Memory.wf m' = true)
    (h : ∀ p, Memory.read m p = Memory.read m' p) : m = m' := by
  have absent : ∀ (l : Memory) (q : Nat), (∀ cell ∈ l, q < cell.1) → Memory.read l q = none := by
    intro l q hl
    induction l with
    | nil => rfl
    | cons cell rest ih =>
      obtain ⟨a, b⟩ := cell
      have h1 : q < a := hl (a, b) List.mem_cons_self
      simp only [Memory.read]
      rw [if_neg (by omega)]
      exact ih fun cell hc => hl cell (List.mem_cons_of_mem _ hc)
  induction m generalizing m' with
  | nil =>
    cases m' with
    | nil => rfl
    | cons cell rest => have := h cell.1; simp [Memory.read] at this
  | cons cell rest ih =>
    obtain ⟨a, b⟩ := cell
    cases m' with
    | nil => have := h a; simp [Memory.read] at this
    | cons cell' rest' =>
      obtain ⟨c, d⟩ := cell'
      obtain ⟨hr, ha⟩ := (Memory.wf_cons a b rest).1 hm
      obtain ⟨hr', hc⟩ := (Memory.wf_cons c d rest').1 hm'
      have hac : a = c := by
        rcases Nat.lt_trichotomy a c with hlt | heq | hgt
        · have := h a
          simp only [Memory.read, if_true] at this
          rw [if_neg (by omega), absent rest' a fun x hx => Nat.lt_trans hlt (hc x hx)] at this
          simp at this
        · exact heq
        · have := h c
          simp only [Memory.read, if_true] at this
          rw [if_neg (by omega), absent rest c fun x hx => Nat.lt_trans hgt (ha x hx)] at this
          simp at this
      subst hac
      have hbd : b = d := by simpa [Memory.read] using h a
      subst hbd
      congr 1
      refine ih rest' hr hr' fun p => ?_
      by_cases hp : a = p
      · subst hp; rw [absent rest a ha, absent rest' a hc]
      · have := h p; simpa [Memory.read, hp] using this

theorem Memory.within_writeByte (cfg : Config) (m : Memory) (p : Nat) (v : Byte)
    (h : Memory.within cfg m = true) (hp : p < 2 ^ cfg.addrBits) :
    Memory.within cfg (Memory.writeByte m p v) = true := by
  simp only [Memory.within, List.all_eq_true, decide_eq_true_eq] at *
  intro cell hc
  rcases Memory.mem_writeByte _ _ _ _ hc with rfl | hc
  · exact hp
  · exact h _ hc

theorem Memory.within_write (cfg : Config) (m : Memory) (p : Nat) (bs : List Byte)
    (h : Memory.within cfg m = true) (hp : p + bs.length ≤ 2 ^ cfg.addrBits) :
    Memory.within cfg (Memory.write m p bs) = true := by
  induction bs generalizing m p with
  | nil => exact h
  | cons b bs ih =>
    rw [List.length_cons] at hp
    exact ih _ _ (Memory.within_writeByte _ _ _ _ h (by omega)) (by omega)

theorem Memory.within_overlayRacing (cfg : Config) (wins : Nat → Bool) (off n : Nat) (m other : Memory)
    (h : Memory.within cfg m = true) (ho : Memory.within cfg other = true) :
    Memory.within cfg (Memory.overlayRacing wins off n m other) = true := by
  induction other generalizing m with
  | nil => exact h
  | cons cell rest ih =>
    obtain ⟨p, v⟩ := cell
    simp only [Memory.within, List.all_cons, Bool.and_eq_true, decide_eq_true_eq] at ho
    simp only [Memory.overlayRacing]
    split
    · exact ih _ h (by simpa [Memory.within] using ho.2)
    · exact ih _ (Memory.within_writeByte _ _ _ _ h ho.1) (by simpa [Memory.within] using ho.2)

/-- A position the other writer does not list keeps its byte. -/
theorem Memory.read_overlayRacing_unlisted (wins : Nat → Bool) (off n : Nat) (m other : Memory) (q : Nat)
    (hq : ∀ cell ∈ other, cell.1 ≠ q) :
    Memory.read (Memory.overlayRacing wins off n m other) q = Memory.read m q := by
  induction other generalizing m with
  | nil => rfl
  | cons cell rest ih =>
    obtain ⟨p, v⟩ := cell
    have hrest := fun cell hc => hq cell (List.mem_cons_of_mem _ hc)
    have hp : p ≠ q := hq (p, v) List.mem_cons_self
    simp only [Memory.overlayRacing]
    split
    · exact ih _ hrest
    · rw [ih _ hrest, Memory.read_writeByte, if_neg (Ne.symm hp)]

end Sys2Proof.Machine
end

