-- ==== Sys2Proof/Laws/State.lean ====
section
/-! SUPPORT. State: what each update of the state does to each field, one lemma per field per update. -/

namespace Sys2Proof.Machine

@[simp] theorem respond_ports (r : Response) (s : State) : (respond r s).ports = s.ports := rfl
@[simp] theorem respond_buffer (r : Response) (s : State) : (respond r s).buffer = s.buffer := rfl
@[simp] theorem respond_response (r : Response) (s : State) : (respond r s).response = some r := rfl
@[simp] theorem respond_script (r : Response) (s : State) : (respond r s).script = s.script := rfl
@[simp] theorem respond_policy (r : Response) (s : State) : (respond r s).policy = s.policy := rfl
@[simp] theorem respond_faulted (r : Response) (s : State) : (respond r s).faulted = s.faulted := rfl
@[simp] theorem respond_raceTick (r : Response) (s : State) : (respond r s).raceTick = s.raceTick := rfl

@[simp] theorem memWrite_ports (p : Nat) (bs : List Byte) (s : State) : (memWrite p bs s).ports = s.ports := rfl
@[simp] theorem memWrite_buffer (p : Nat) (bs : List Byte) (s : State) :
    (memWrite p bs s).buffer = Memory.write s.buffer p bs := rfl
@[simp] theorem memWrite_response (p : Nat) (bs : List Byte) (s : State) :
    (memWrite p bs s).response = s.response := rfl
@[simp] theorem memWrite_script (p : Nat) (bs : List Byte) (s : State) : (memWrite p bs s).script = s.script := rfl
@[simp] theorem memWrite_policy (p : Nat) (bs : List Byte) (s : State) : (memWrite p bs s).policy = s.policy := rfl
@[simp] theorem memWrite_faulted (p : Nat) (bs : List Byte) (s : State) : (memWrite p bs s).faulted = s.faulted := rfl
@[simp] theorem memWrite_raceTick (p : Nat) (bs : List Byte) (s : State) :
    (memWrite p bs s).raceTick = s.raceTick := rfl

@[simp] theorem raiseBufferOverflow_ports (s : State) : (raiseBufferOverflow s).ports = s.ports := rfl
@[simp] theorem raiseBufferOverflow_buffer (s : State) : (raiseBufferOverflow s).buffer = s.buffer := rfl
@[simp] theorem raiseBufferOverflow_response (s : State) :
    (raiseBufferOverflow s).response = some (.err .bufferOverflowError) := rfl
@[simp] theorem raiseBufferOverflow_script (s : State) : (raiseBufferOverflow s).script = s.script := rfl
@[simp] theorem raiseBufferOverflow_policy (s : State) : (raiseBufferOverflow s).policy = s.policy := rfl
@[simp] theorem raiseBufferOverflow_faulted (s : State) : (raiseBufferOverflow s).faulted = s.faulted := rfl
@[simp] theorem raiseBufferOverflow_raceTick (s : State) : (raiseBufferOverflow s).raceTick = s.raceTick := rfl

@[simp] theorem clearResponse_ports (s : State) : (clearResponse s).ports = s.ports := rfl
@[simp] theorem clearResponse_buffer (s : State) : (clearResponse s).buffer = s.buffer := rfl
@[simp] theorem clearResponse_response (s : State) : (clearResponse s).response = none := rfl
@[simp] theorem clearResponse_script (s : State) : (clearResponse s).script = s.script := rfl
@[simp] theorem clearResponse_policy (s : State) : (clearResponse s).policy = s.policy := rfl
@[simp] theorem clearResponse_faulted (s : State) : (clearResponse s).faulted = s.faulted := rfl
@[simp] theorem clearResponse_raceTick (s : State) : (clearResponse s).raceTick = s.raceTick := rfl

@[simp] theorem presentCommand_ports (c : Command) (rest : List HostEvent) (s : State) :
    (presentCommand c rest s).ports = c := rfl
@[simp] theorem presentCommand_buffer (c : Command) (rest : List HostEvent) (s : State) :
    (presentCommand c rest s).buffer = s.buffer := rfl
@[simp] theorem presentCommand_response (c : Command) (rest : List HostEvent) (s : State) :
    (presentCommand c rest s).response = s.response := rfl
@[simp] theorem presentCommand_script (c : Command) (rest : List HostEvent) (s : State) :
    (presentCommand c rest s).script = rest := rfl
@[simp] theorem presentCommand_policy (c : Command) (rest : List HostEvent) (s : State) :
    (presentCommand c rest s).policy = s.policy := rfl
@[simp] theorem presentCommand_faulted (c : Command) (rest : List HostEvent) (s : State) :
    (presentCommand c rest s).faulted = s.faulted := rfl
@[simp] theorem presentCommand_raceTick (c : Command) (rest : List HostEvent) (s : State) :
    (presentCommand c rest s).raceTick = s.raceTick := rfl

@[simp] theorem receive_ports (s : State) : (receive s).ports = s.ports := rfl
@[simp] theorem receive_buffer (s : State) : (receive s).buffer = s.buffer := rfl
@[simp] theorem receive_response (s : State) : (receive s).response = s.response := rfl
@[simp] theorem receive_script (s : State) : (receive s).script = s.script := rfl
@[simp] theorem receive_policy (s : State) : (receive s).policy = s.policy := rfl
@[simp] theorem receive_faulted (s : State) : (receive s).faulted = (s.faulted || isErr s.response) := rfl
@[simp] theorem receive_raceTick (s : State) : (receive s).raceTick = s.raceTick := rfl

@[simp] theorem landRacing_ports (other : Memory) (s : State) : (landRacing other s).ports = s.ports := rfl
@[simp] theorem landRacing_buffer (other : Memory) (s : State) :
    (landRacing other s).buffer = Memory.overlayRacing (Config.raceWinner s.raceTick) s.ports.offset (countWritten s.response) s.buffer other := rfl
@[simp] theorem landRacing_response (other : Memory) (s : State) : (landRacing other s).response = s.response := rfl
@[simp] theorem landRacing_script (other : Memory) (s : State) : (landRacing other s).script = s.script := rfl
@[simp] theorem landRacing_policy (other : Memory) (s : State) : (landRacing other s).policy = s.policy := rfl
@[simp] theorem landRacing_faulted (other : Memory) (s : State) : (landRacing other s).faulted = s.faulted := rfl
@[simp] theorem landRacing_raceTick (other : Memory) (s : State) :
    (landRacing other s).raceTick = s.raceTick + 1 := rfl

@[simp] theorem presentBuffer_ports (contents : Memory) (rest : List HostEvent) (s : State) :
    (presentBuffer contents rest s).ports = s.ports := rfl
@[simp] theorem presentBuffer_buffer (contents : Memory) (rest : List HostEvent) (s : State) :
    (presentBuffer contents rest s).buffer = contents := rfl
@[simp] theorem presentBuffer_response (contents : Memory) (rest : List HostEvent) (s : State) :
    (presentBuffer contents rest s).response = none := rfl
@[simp] theorem presentBuffer_script (contents : Memory) (rest : List HostEvent) (s : State) :
    (presentBuffer contents rest s).script = rest := rfl
@[simp] theorem presentBuffer_policy (contents : Memory) (rest : List HostEvent) (s : State) :
    (presentBuffer contents rest s).policy = s.policy := rfl
@[simp] theorem presentBuffer_faulted (contents : Memory) (rest : List HostEvent) (s : State) :
    (presentBuffer contents rest s).faulted = s.faulted := rfl
@[simp] theorem presentBuffer_raceTick (contents : Memory) (rest : List HostEvent) (s : State) :
    (presentBuffer contents rest s).raceTick = s.raceTick := rfl

@[simp] theorem resetEvent_ports (rest : List HostEvent) (s : State) : (resetEvent rest s).ports = s.ports := rfl
@[simp] theorem resetEvent_buffer (rest : List HostEvent) (s : State) : (resetEvent rest s).buffer = s.buffer := rfl
@[simp] theorem resetEvent_response (rest : List HostEvent) (s : State) : (resetEvent rest s).response = none := rfl
@[simp] theorem resetEvent_script (rest : List HostEvent) (s : State) : (resetEvent rest s).script = rest := rfl
@[simp] theorem resetEvent_policy (rest : List HostEvent) (s : State) : (resetEvent rest s).policy = s.policy := rfl
@[simp] theorem resetEvent_faulted (rest : List HostEvent) (s : State) :
    (resetEvent rest s).faulted = s.faulted := rfl
@[simp] theorem resetEvent_raceTick (rest : List HostEvent) (s : State) :
    (resetEvent rest s).raceTick = s.raceTick := rfl

@[simp] theorem loadRun_ports (script : List HostEvent) (contents : Memory) (s : State) :
    (loadRun script contents s).ports = s.ports := rfl
@[simp] theorem loadRun_buffer (script : List HostEvent) (contents : Memory) (s : State) :
    (loadRun script contents s).buffer = contents := rfl
@[simp] theorem loadRun_response (script : List HostEvent) (contents : Memory) (s : State) :
    (loadRun script contents s).response = s.response := rfl
@[simp] theorem loadRun_script (script : List HostEvent) (contents : Memory) (s : State) :
    (loadRun script contents s).script = script := rfl
@[simp] theorem loadRun_policy (script : List HostEvent) (contents : Memory) (s : State) :
    (loadRun script contents s).policy = s.policy := rfl
@[simp] theorem loadRun_faulted (script : List HostEvent) (contents : Memory) (s : State) :
    (loadRun script contents s).faulted = false := rfl
@[simp] theorem loadRun_raceTick (script : List HostEvent) (contents : Memory) (s : State) :
    (loadRun script contents s).raceTick = s.raceTick := rfl

@[simp] theorem placeCommand_ports (cmd : BitVec 4) (s : State) : (placeCommand cmd s).ports = s.ports := rfl
@[simp] theorem placeCommand_buffer (cmd : BitVec 4) (s : State) : (placeCommand cmd s).buffer = s.buffer := rfl
@[simp] theorem placeCommand_response (cmd : BitVec 4) (s : State) : (placeCommand cmd s).response = s.response := rfl
@[simp] theorem placeCommand_script (cmd : BitVec 4) (s : State) :
    (placeCommand cmd s).script = .issue { s.ports with cmd := cmd } :: s.script := rfl
@[simp] theorem placeCommand_policy (cmd : BitVec 4) (s : State) : (placeCommand cmd s).policy = s.policy := rfl
@[simp] theorem placeCommand_faulted (cmd : BitVec 4) (s : State) : (placeCommand cmd s).faulted = false := rfl
@[simp] theorem placeCommand_raceTick (cmd : BitVec 4) (s : State) : (placeCommand cmd s).raceTick = s.raceTick := rfl

@[simp] theorem mapNext_next (f : State → State) (s : State) : mapNext f (.next s) = .next (f s) := rfl
@[simp] theorem mapNext_fault (f : State → State) (r : Fault) : mapNext f (.fault r) = .fault r := rfl
@[simp] theorem mapNext_refused (f : State → State) (r : Refusal) : mapNext f (.refused r) = .refused r := rfl

end Sys2Proof.Machine
end

