-- ==== Sys2Proof/Laws/Ops.lean ====
section
/-! SUPPORT. Ops: what each shared operation of the machine can do, said once. -/

namespace Sys2Proof.Machine

@[simp] theorem sh_big (w : Width) (k : Nat) : sh w .big k = 8 * (w.bytes - 1 - k) := rfl
@[simp] theorem sh_little (w : Width) (k : Nat) : sh w .little k = 8 * k := rfl

@[simp] theorem bytes_length (v : Nat) (w : Width) (o : Order) : (bytes v w o).length = w.bytes := by
  simp [bytes]

/-- The `k`-th byte of the sequence is lane `k`. -/
theorem bytes_getElem? (v : Nat) (w : Width) (o : Order) (k : Nat) (h : k < w.bytes) :
    (bytes v w o)[k]? = some (lane v w o k) := by
  simp [bytes, List.getElem?_range h]

/-- Every instruction is one of the two shared operations at its own width and order. -/
theorem exec_eq (i : Instr) (s : State) :
    exec i s = if i.isInto then encInto Config.hardware.strictBounds i.width i.order s else encNew i.width i.order s := by
  cases i <;> rfl

/-- `encInto` does one of two things, chosen by the bounds check. -/
theorem encInto_cases (strict : Bool) (w : Width) (o : Order) (s : State) :
    (overflow strict (offsetOperand s) w.bytes (lenOperand s) = true ∧
      encInto strict w o s = .next (raiseBufferOverflow s)) ∨
    (overflow strict (offsetOperand s) w.bytes (lenOperand s) = false ∧
      encInto strict w o s =
        .next (respond (.ok w.bytes) (memWrite (offsetOperand s) (bytes (valueOperand w s) w o) s))) := by
  cases h : overflow strict (offsetOperand s) w.bytes (lenOperand s)
  · exact .inr ⟨rfl, by rw [encInto, h]; rfl⟩
  · exact .inl ⟨rfl, by rw [encInto, h]; rfl⟩

@[simp] theorem hardware_strictBounds : Config.hardware.strictBounds = false := rfl
@[simp] theorem hardware_instances : Config.hardware.instances = 1 := rfl
theorem hardware_addrBits : Config.hardware.addrBits = 32 := rfl

/-- The bounds check of this hardware, said of the numbers (rule R80). -/
theorem overflow_hardware (off w l : Nat) : overflow Config.hardware.strictBounds off w l = true ↔ l < off + w := by
  simp [overflow]

/-- A command the ports can carry, said of the numbers (rules R20, R28). -/
theorem command_wf_iff (cfg : Config) (c : Command) :
    c.wf cfg = true ↔ c.offset < 2 ^ cfg.addrBits ∧ c.len < 2 ^ cfg.addrBits := by
  simp [Sys2Proof.Command.wf, Sys2Proof.Command.offsetFits, Sys2Proof.Command.lenFits]

@[simp] theorem step_of_stopped (s : State) (h : hasStopped s = true) : step s = .fault .bufferOverflowError := by
  rw [step, h]; rfl

theorem step_of_running (s : State) (h : hasStopped s = false) : step s = runNextEvent s := by
  rw [step, h]; rfl

/-! What one command leaves in a buffer. -/

theorem commandEffect_of_writes (m : Memory) (c : Command) (h : c.instr.isInto = true ∧ c.offset + c.instr.width.bytes ≤ c.len) :
    commandEffect m c = Memory.write m c.offset
      (bytes (c.value.toNat % 2 ^ c.instr.width.bits) c.instr.width c.instr.order) := if_pos h

theorem commandEffect_of_not (m : Memory) (c : Command) (h : ¬(c.instr.isInto = true ∧ c.offset + c.instr.width.bytes ≤ c.len)) :
    commandEffect m c = m := if_neg h

/-- The four kinds of step of a host that has not stopped, by its next event, and the idle one. -/
theorem step_cases (s : State) (h : hasStopped s = false) :
    (s.script = [] ∧ step s = .next (clearResponse s)) ∨
    (∃ c rest, s.script = .issue c :: rest ∧ step s = issueCommand c rest s) ∨
    (∃ c other rest, s.script = .issueRacing c other :: rest ∧ step s = issueRacingCommand c other rest s) ∨
    (∃ m rest, s.script = .present m :: rest ∧ step s = .next (presentBuffer m rest s)) ∨
    (∃ rest, s.script = .resetBlock :: rest ∧ step s = .next (resetEvent rest s)) := by
  rw [step_of_running s h, runNextEvent]
  rcases hs : s.script with _ | ⟨⟨c⟩ | ⟨c, other⟩ | ⟨m⟩ | _, rest⟩ <;> simp

end Sys2Proof.Machine
end

