-- ==== Sys2Proof/Laws/PerInstr.lean ====
section
/-! SUPPORT. PerInstr: facts about every instruction as syntax, one lemma per constructor. -/

namespace Sys2Proof.Laws

/-- The word of the instruction carries, field by field, what its row of rule R58 says (rules R54 to R57), and the
instruction is well formed. -/
def EncodingFields.Statement (i : Instr) : Prop :=
  fieldInto (encode i) = i.isInto ∧ fieldBe (encode i) = i.order ∧ fieldWsel (encode i) = i.width ∧ i.wf = true

theorem EncodingFields.encnew8Le : EncodingFields.Statement .encnew8Le := ⟨rfl, rfl, rfl, rfl⟩
theorem EncodingFields.encnew16Le : EncodingFields.Statement .encnew16Le := ⟨rfl, rfl, rfl, rfl⟩
theorem EncodingFields.encnew32Le : EncodingFields.Statement .encnew32Le := ⟨rfl, rfl, rfl, rfl⟩
theorem EncodingFields.encnew64Le : EncodingFields.Statement .encnew64Le := ⟨rfl, rfl, rfl, rfl⟩
theorem EncodingFields.encnew8Be : EncodingFields.Statement .encnew8Be := ⟨rfl, rfl, rfl, rfl⟩
theorem EncodingFields.encnew16Be : EncodingFields.Statement .encnew16Be := ⟨rfl, rfl, rfl, rfl⟩
theorem EncodingFields.encnew32Be : EncodingFields.Statement .encnew32Be := ⟨rfl, rfl, rfl, rfl⟩
theorem EncodingFields.encnew64Be : EncodingFields.Statement .encnew64Be := ⟨rfl, rfl, rfl, rfl⟩
theorem EncodingFields.encinto8Le : EncodingFields.Statement .encinto8Le := ⟨rfl, rfl, rfl, rfl⟩
theorem EncodingFields.encinto16Le : EncodingFields.Statement .encinto16Le := ⟨rfl, rfl, rfl, rfl⟩
theorem EncodingFields.encinto32Le : EncodingFields.Statement .encinto32Le := ⟨rfl, rfl, rfl, rfl⟩
theorem EncodingFields.encinto64Le : EncodingFields.Statement .encinto64Le := ⟨rfl, rfl, rfl, rfl⟩
theorem EncodingFields.encinto8Be : EncodingFields.Statement .encinto8Be := ⟨rfl, rfl, rfl, rfl⟩
theorem EncodingFields.encinto16Be : EncodingFields.Statement .encinto16Be := ⟨rfl, rfl, rfl, rfl⟩
theorem EncodingFields.encinto32Be : EncodingFields.Statement .encinto32Be := ⟨rfl, rfl, rfl, rfl⟩
theorem EncodingFields.encinto64Be : EncodingFields.Statement .encinto64Be := ⟨rfl, rfl, rfl, rfl⟩

end Sys2Proof.Laws
end

