-- ==== Sys2Proof/Laws/Platform.lean ====
section
/-! SUPPORT. Platform: what a command to one of several instances can do. -/

namespace Sys2Proof.Machine

@[simp] theorem stateOfCommand_ports (c : Command) (m : Memory) : (stateOfCommand c m).ports = c := rfl
@[simp] theorem stateOfCommand_buffer (c : Command) (m : Memory) : (stateOfCommand c m).buffer = m := rfl

@[simp] theorem update_blocks (k b : Nat) (c : Command) (r : Option Response) (m : Memory) (p : Platform) :
    (p.update k b c r m).blocks = p.blocks.set k { ports := c, response := r } := rfl
@[simp] theorem update_buffers (k b : Nat) (c : Command) (r : Option Response) (m : Memory) (p : Platform) :
    (p.update k b c r m).buffers = p.buffers.set b m := rfl

@[simp] theorem reset_blocks_length (cfg : Config) (bufs : List Memory) :
    (Platform.reset cfg bufs).blocks.length = cfg.instances := by simp [Platform.reset]
@[simp] theorem reset_buffers (cfg : Config) (bufs : List Memory) : (Platform.reset cfg bufs).buffers = bufs := rfl

/-- An instance always answers: a response that depends on the command alone (rule R43), and the buffer `commandEffect`
says. -/
theorem answer_spec (c : Command) :
    ∃ r, ∀ m, answer c m = .next (respond r (stateOfCommand c (commandEffect m c))) := by
  cases hi : c.instr.isInto
  · refine ⟨.new (bytes (valueOperand c.instr.width (stateOfCommand c [])) c.instr.width c.instr.order), fun m => ?_⟩
    rw [answer, exec_eq, hi, commandEffect_of_not m c (by simp [hi])]
    rfl
  · by_cases hfit : c.offset + c.instr.width.bytes ≤ c.len
    · refine ⟨.ok c.instr.width.bytes, fun m => ?_⟩
      rw [answer, exec_eq, hi, commandEffect_of_writes m c ⟨hi, hfit⟩]
      rcases encInto_cases Config.hardware.strictBounds c.instr.width c.instr.order (stateOfCommand c m) with
        ⟨ho, _⟩ | ⟨_, he⟩
      · exact absurd ((overflow_hardware _ _ _).mp ho) (Nat.not_lt.mpr hfit)
      · exact he
    · refine ⟨.err .bufferOverflowError, fun m => ?_⟩
      rw [answer, exec_eq, hi, commandEffect_of_not m c fun h => hfit h.2]
      rcases encInto_cases Config.hardware.strictBounds c.instr.width c.instr.order (stateOfCommand c m) with
        ⟨_, he⟩ | ⟨ho, _⟩
      · exact he
      · exact absurd ((overflow_hardware _ _ _).mpr (Nat.lt_of_not_le hfit)) (Bool.eq_false_iff.mp ho)

/-- A command issued to the platform, said once: where the instance and the buffer exist it always answers, with a response
that depends on the command alone. -/
theorem issueOn_spec (c : Command) :
    ∃ r, ∀ (k b : Nat) (p : Platform) (m : Memory), k < p.blocks.length → p.buffers[b]? = some m →
      p.issueOn k b c = some (p.update k b c (some r) (commandEffect m c)) := by
  obtain ⟨r, hr⟩ := answer_spec c
  refine ⟨r, fun k b p m hk hb => ?_⟩
  rw [Platform.issueOn, List.getElem?_eq_getElem hk, hb]
  simp only [hr]
  rfl

/-- If a command to the platform answers, the instance and the buffer exist. -/
theorem issueOn_cases (k b : Nat) (c : Command) (p q : Platform) (h : p.issueOn k b c = some q) :
    ∃ m r, k < p.blocks.length ∧ p.buffers[b]? = some m ∧ q = p.update k b c (some r) (commandEffect m c) := by
  obtain ⟨r, hr⟩ := issueOn_spec c
  cases hk : p.blocks[k]? with
  | none => simp [Platform.issueOn, hk] at h
  | some v =>
    cases hb : p.buffers[b]? with
    | none => simp [Platform.issueOn, hk, hb] at h
    | some m =>
      have hk' := (List.getElem?_eq_some_iff.mp hk).1
      rw [hr k b p m hk' hb] at h
      exact ⟨m, r, hk', rfl, (Option.some.inj h).symm⟩

end Sys2Proof.Machine
end

