-- ==== Sys2Proof/Tests/Slice0.lean ====
section
/-! SUPPORT. Slice0: the model's own tests. Expected values are those of 95_test_vectors.md (the vector is named at each
test), of the instruction rules' own examples, or written out from rule R58; then the witnesses of the obligations'
hypotheses. -/

namespace Sys2Proof.Tests

open Sys2Proof.Machine

/-! Helpers -/

/-- A state about to execute: the ports carry a command, the buffer holds `bs` from position 0. -/
def ready (value : BitVec 64) (offset len : Nat) (bs : List Byte) : State :=
  { State.reset with
    ports := { cmd := 0#4, value := value, offset := offset, len := len }
    buffer := Memory.write [] 0 bs }

/-- What a test looks at: the response, and the first `n` bytes of the buffer. -/
def seen (n : Nat) : Host.Outcome State Fault Refusal → Option (Option Response × List (Option Byte))
  | .next s => some (s.response, Memory.contents s.buffer n)
  | .fault _ => none
  | .refused _ => none

/-- The response of a test that stays away from the buffer. -/
def answered (out : Host.Outcome State Fault Refusal) : Option Response := (seen 0 out).bind (·.1)

/-- "Whatever was there before". -/
def filler (n : Nat) : List Byte := List.replicate n 0xEE#8

/-! Decoding: each word written out as INTO, BE, WSEL (rules R54, R58) -/

theorem test_decode_encnew8Le : decodeTableWord 8 0b0000 = some .encnew8Le := by decide
theorem test_decode_encnew16Le : decodeTableWord 8 0b0001 = some .encnew16Le := by decide
theorem test_decode_encnew32Le : decodeTableWord 8 0b0010 = some .encnew32Le := by decide
theorem test_decode_encnew64Le : decodeTableWord 8 0b0011 = some .encnew64Le := by decide
theorem test_decode_encnew8Be : decodeTableWord 8 0b0100 = some .encnew8Be := by decide
theorem test_decode_encnew16Be : decodeTableWord 8 0b0101 = some .encnew16Be := by decide
theorem test_decode_encnew32Be : decodeTableWord 8 0b0110 = some .encnew32Be := by decide
theorem test_decode_encnew64Be : decodeTableWord 8 0b0111 = some .encnew64Be := by decide
theorem test_decode_encinto8Le : decodeTableWord 8 0b1000 = some .encinto8Le := by decide
theorem test_decode_encinto16Le : decodeTableWord 8 0b1001 = some .encinto16Le := by decide
theorem test_decode_encinto32Le : decodeTableWord 8 0b1010 = some .encinto32Le := by decide
theorem test_decode_encinto64Le : decodeTableWord 8 0b1011 = some .encinto64Le := by decide
theorem test_decode_encinto8Be : decodeTableWord 8 0b1100 = some .encinto8Be := by decide
theorem test_decode_encinto16Be : decodeTableWord 8 0b1101 = some .encinto16Be := by decide
theorem test_decode_encinto32Be : decodeTableWord 8 0b1110 = some .encinto32Be := by decide
theorem test_decode_encinto64Be : decodeTableWord 8 0b1111 = some .encinto64Be := by decide
theorem test_decode_refuses_bit4 : decodeWord 0x10 = .error (.bitsAboveCmd 0x10) := by rfl

/-! Well-formedness: each check refuses an ill-formed term -/

/-- Rule R62: no instruction is ill formed; the checks that can refuse are those of commands, below. -/
theorem test_wf_every_instr (i : Instr) : i.wf = true := by cases i <;> rfl
theorem test_wf_refuses_offset : Command.offsetFits Config.hardware ⟨0xC#4, 0#64, 2 ^ 32, 5⟩ = false := by decide
theorem test_wf_refuses_len : Command.lenFits Config.hardware ⟨0xC#4, 0#64, 5, 2 ^ 32⟩ = false := by decide
theorem test_wf_refuses_command : Command.wf Config.hardware ⟨0xC#4, 0#64, 2 ^ 32, 2 ^ 32⟩ = false := by decide
theorem test_wf_accepts_command : Command.wf Config.hardware ⟨0xC#4, 0#64, 2 ^ 32 - 1, 2 ^ 32 - 1⟩ = true := by decide
theorem test_wf_refuses_addrBits : Config.wf ⟨3, false, 1⟩ = false := by decide
theorem test_wf_refuses_no_instance : Config.wf ⟨32, false, 0⟩ = false := by decide
theorem test_wf_accepts_hardware : Config.wf Config.hardware = true := by decide
theorem test_wf_refuses_value : valueFits .w8 0x100 = false := by decide
theorem test_wf_refuses_unsorted : Memory.wf [(3, 0#8), (2, 0#8)] = false := by decide
theorem test_wf_refuses_double : Memory.wf [(3, 0#8), (3, 1#8)] = false := by decide
theorem test_wf_refuses_beyond_ports : Memory.within Config.hardware [(2 ^ 32, 0#8)] = false := by decide
theorem test_wf_refuses_response : Response.legal (.ok 3) = false := by decide
theorem test_wf_refuses_event : HostEvent.wf Config.hardware (.present [(1, 0#8), (0, 0#8)]) = false := by decide

/-! ENCNEW, two a command at most -/

/-- S6b. -/
theorem test_encnew8Le : answered (exec .encnew8Le (ready 0x7F 0 0 [])) = some (.new [0x7F]) := by decide
/-- V-N3: no sign extension. -/
theorem test_encnew8Le_top : answered (exec .encnew8Le (ready 0x80 0 0 [])) = some (.new [0x80]) := by decide
/-- S6a. -/
theorem test_encnew8Be : answered (exec .encnew8Be (ready 0x7F 0 0 [])) = some (.new [0x7F]) := by decide
/-- V-N31: bits 63:8 ignored. -/
theorem test_encnew8Be_upper : answered (exec .encnew8Be (ready 0xFFFFFFFFFFFFFFA5 0 0 [])) = some (.new [0xA5]) := by
  decide
/-- S5. -/
theorem test_encnew16Le : answered (exec .encnew16Le (ready 0xABCD 0 0 [])) = some (.new [0xCD, 0xAB]) := by decide
/-- V-N9. -/
theorem test_encnew16Le_top : answered (exec .encnew16Le (ready 0x8000 0 0 [])) = some (.new [0x00, 0x80]) := by decide
/-- S4. -/
theorem test_encnew16Be : answered (exec .encnew16Be (ready 0xABCD 0 0 [])) = some (.new [0xAB, 0xCD]) := by decide
/-- V-N36. -/
theorem test_encnew16Be_low : answered (exec .encnew16Be (ready 0x00FF 0 0 [])) = some (.new [0x00, 0xFF]) := by decide
/-- S2. -/
theorem test_encnew32Le : answered (exec .encnew32Le (ready 0x01020304 0 0 [])) = some (.new [4, 3, 2, 1]) := by decide
/-- V-N27. -/
theorem test_encnew32Le_high : answered (exec .encnew32Le (ready 0xDEADBEEF 0 0 [])) =
    some (.new [0xEF, 0xBE, 0xAD, 0xDE]) := by decide
/-- S1. -/
theorem test_encnew32Be : answered (exec .encnew32Be (ready 0x01020304 0 0 [])) = some (.new [1, 2, 3, 4]) := by decide
/-- V-N34: OFFSET and LEN are ignored. -/
theorem test_encnew32Be_no_bounds : answered (exec .encnew32Be (ready 0x01020304 100 0 [])) = some (.new [1, 2, 3, 4]) := by
  decide
/-- V-N29. -/
theorem test_encnew64Le : answered (exec .encnew64Le (ready 0x1122334455667788 0 0 [])) =
    some (.new [0x88, 0x77, 0x66, 0x55, 0x44, 0x33, 0x22, 0x11]) := by decide
/-- V-N21. -/
theorem test_encnew64Le_top : answered (exec .encnew64Le (ready 0x8000000000000000 7 3 [])) =
    some (.new [0, 0, 0, 0, 0, 0, 0, 0x80]) := by decide
/-- S3. -/
theorem test_encnew64Be : answered (exec .encnew64Be (ready 0x0102030405060708 0 0 [])) =
    some (.new [1, 2, 3, 4, 5, 6, 7, 8]) := by decide
/-- V-N30. -/
theorem test_encnew64Be_high : answered (exec .encnew64Be (ready 0x1122334455667788 0 0 [])) =
    some (.new [0x11, 0x22, 0x33, 0x44, 0x55, 0x66, 0x77, 0x88]) := by decide

/-- The physical ports shown after Part 3: `ENCNEW16.BE 0x12FE` gives OUT = 0xFE12, COUNT = 2, STATUS = 0. -/
theorem test_ports_encnew16Be :
    (answered (exec .encnew16Be (ready 0x12FE 0 0 []))).map
      (fun r => (statusPort (some r), countPort (some r), outPort (some r))) = some (0#1, 2#4, 0xFE12#64) := by decide

/-! ENCINTO, two a command at most -/

/-- R84's example. -/
theorem test_encinto8Le : seen 3 (exec .encinto8Le (ready 0x7F 1 3 (filler 3))) =
    some (some (.ok 1), [some 0xEE, some 0x7F, some 0xEE]) := by decide
/-- R84's example, the failing one. -/
theorem test_encinto8Le_err : seen 3 (exec .encinto8Le (ready 0x7F 3 3 (filler 3))) =
    some (some (.err .bufferOverflowError), [some 0xEE, some 0xEE, some 0xEE]) := by decide
/-- R85, exact fit at the start. -/
theorem test_encinto8Be : seen 1 (exec .encinto8Be (ready 0x7F 0 1 (filler 1))) =
    some (some (.ok 1), [some 0x7F]) := by decide
/-- V-I25: no wrap. -/
theorem test_encinto8Be_no_wrap : answered (exec .encinto8Be (ready 0x7F 4294967295 4294967295 [])) =
    some (.err .bufferOverflowError) := by decide
/-- R86's example. -/
theorem test_encinto16Le : seen 4 (exec .encinto16Le (ready 0xABCD 1 4 (filler 4))) =
    some (some (.ok 2), [some 0xEE, some 0xCD, some 0xAB, some 0xEE]) := by decide
/-- R86, one byte too short. -/
theorem test_encinto16Le_short : seen 1 (exec .encinto16Le (ready 0xABCD 0 1 (filler 1))) =
    some (some (.err .bufferOverflowError), [some 0xEE]) := by decide
/-- V-I19. -/
theorem test_encinto16Be : seen 4 (exec .encinto16Be (ready 0x8000 1 4 [0x00, 0x11, 0x22, 0x33])) =
    some (some (.ok 2), [some 0x00, some 0x80, some 0x00, some 0x33]) := by decide
/-- V-I22: upper bits of VALUE ignored, exact fit. -/
theorem test_encinto16Be_upper : seen 2 (exec .encinto16Be (ready 0xFFFFFFFFFFFF12FE 0 2 (filler 2))) =
    some (some (.ok 2), [some 0x12, some 0xFE]) := by decide
/-- V-I2. -/
theorem test_encinto32Le : seen 6 (exec .encinto32Le (ready 0x01020304 1 6 (filler 6))) =
    some (some (.ok 4), [some 0xEE, some 4, some 3, some 2, some 1, some 0xEE]) := by decide
/-- V-I21. -/
theorem test_encinto32Le_ones : seen 5 (exec .encinto32Le (ready 0xFFFFFFFF 1 5 [0, 0, 0, 0, 0])) =
    some (some (.ok 4), [some 0, some 0xFF, some 0xFF, some 0xFF, some 0xFF]) := by decide
/-- V-I1. -/
theorem test_encinto32Be : seen 6 (exec .encinto32Be (ready 0x01020304 1 6 (filler 6))) =
    some (some (.ok 4), [some 0xEE, some 1, some 2, some 3, some 4, some 0xEE]) := by decide
/-- V-I16: no truncated write. -/
theorem test_encinto32Be_short : seen 3 (exec .encinto32Be (ready 0x01020304 0 3 (filler 3))) =
    some (some (.err .bufferOverflowError), [some 0xEE, some 0xEE, some 0xEE]) := by decide
/-- V-I18, unaligned, read at its ends. -/
theorem test_encinto64Le : (seen 12 (exec .encinto64Le (ready 0x1122334455667788 3 12 (filler 12)))).map
    (fun r => (r.1, [r.2[2]?, r.2[3]?, r.2[10]?, r.2[11]?])) =
    some (some (.ok 8), [some (some 0xEE), some (some 0x88), some (some 0x11), some (some 0xEE)]) := by decide
/-- V-I17. -/
theorem test_encinto64Le_err : answered (exec .encinto64Le (ready 0x1122334455667788 1 8 (filler 8))) =
    some (.err .bufferOverflowError) := by decide
/-- V-I4. -/
theorem test_encinto64Be : seen 8 (exec .encinto64Be (ready 0x0102030405060708 0 8 (filler 8))) =
    some (some (.ok 8), [some 1, some 2, some 3, some 4, some 5, some 6, some 7, some 8]) := by decide
/-- V-I24: no wrap. -/
theorem test_encinto64Be_no_wrap : answered (exec .encinto64Be (ready 0x0102030405060708 4294967295 4294967295 [])) =
    some (.err .bufferOverflowError) := by decide

/-- V-I26: under STRICT_BOUNDS = 1 the exact fit fails. -/
theorem test_strict_exact_fit : answered (encInto true .w32 .big (ready 0x01020304 12 16 (filler 16))) =
    some (.err .bufferOverflowError) := by decide
/-- V-I30: under STRICT_BOUNDS = 1 the last succeeding offset. -/
theorem test_strict_last_fit : seen 2 (encInto true .w8 .big (ready 0x7F 0 2 (filler 2))) =
    some (some (.ok 1), [some 0x7F, some 0xEE]) := by decide

/-! The host's side -/

/-- P2: after the overflow the sequencer issues nothing. -/
theorem test_run_stops : (runSteps 2 { ready 0 0 0 (filler 6) with
    script := [.issue ⟨0xE, 0xA1A2A3A4, 4, 6⟩, .issue ⟨0xC, 0xFF, 5, 6⟩] }) = .fault .bufferOverflowError := by rfl
/-- Part 6, "error is sticky": V-I6 followed by V-I5, for a host that carries on. -/
theorem test_error_not_sticky : (seen 0 (runSteps 2 { ready 0 0 0 (filler 16) with
    policy := .carryOn, script := [.issue ⟨0xD, 0xABCD, 15, 16⟩, .issue ⟨0xD, 0xABCD, 14, 16⟩] })).map (·.1) =
    some (some (.ok 2)) := by decide
/-- P6, disjoint: instance B's bytes land while A's command is issued, unordered. -/
theorem test_race_disjoint : seen 8 (step { ready 0 0 0 (filler 8) with
    script := [.issueRacing ⟨0xE, 0x11223344, 0, 8⟩ [(4, 0x88), (5, 0x77), (6, 0x66), (7, 0x55)]] }) =
    some (some (.ok 4), [some 0x11, some 0x22, some 0x33, some 0x44, some 0x88, some 0x77, some 0x66, some 0x55]) := by
  decide
/-- A platform of two instances (rule R27), as P6 has it. -/
def twoInstances : Config := { Config.hardware with instances := 2 }

/-- P6's start: two instances on one buffer of eight bytes. -/
def twoOnOne : Platform := Platform.reset twoInstances [Memory.write [] 0 (filler 8)]

/-- P6, what A issues: `ENCINTO32.BE 0x11223344, 0`. -/
def commandA : Command := ⟨0xE, 0x11223344, 0, 8⟩

/-- P6, what B issues: `ENCINTO32.LE 0x55667788, offset`. -/
def commandB (offset : Nat) : Command := ⟨0xA, 0x55667788, offset, 8⟩

/-- The responses of the instances, and the eight bytes of buffer 0. -/
def seenOn (p : Option Platform) : Option (List (Option Response) × Option (List (Option Byte))) :=
  p.map fun p => (p.blocks.map (·.response), (p.buffers[0]?).map fun m => Memory.contents m 8)

/-- P6, disjoint, either order. -/
theorem test_two_instances_disjoint :
    seenOn ((twoOnOne.issueOn 0 0 commandA).bind (·.issueOn 1 0 (commandB 4))) =
      some ([some (.ok 4), some (.ok 4)],
        some [some 0x11, some 0x22, some 0x33, some 0x44, some 0x88, some 0x77, some 0x66, some 0x55]) ∧
    (twoOnOne.issueOn 0 0 commandA).bind (·.issueOn 1 0 (commandB 4)) =
      (twoOnOne.issueOn 1 0 (commandB 4)).bind (·.issueOn 0 0 commandA) := by decide
/-- P6, overlapping, serialised: A before B, then B before A. -/
theorem test_two_instances_serialised :
    (seenOn ((twoOnOne.issueOn 0 0 commandA).bind (·.issueOn 1 0 (commandB 2)))).bind (·.2) =
      some [some 0x11, some 0x22, some 0x88, some 0x77, some 0x66, some 0x55, some 0xEE, some 0xEE] ∧
    (seenOn ((twoOnOne.issueOn 1 0 (commandB 2)).bind (·.issueOn 0 0 commandA))).bind (·.2) =
      some [some 0x11, some 0x22, some 0x33, some 0x44, some 0x66, some 0x55, some 0xEE, some 0xEE] := by decide
/-- R5, D15: this hardware has one instance, so a second one cannot be issued a command. -/
theorem test_one_instance : (Platform.reset Config.hardware [Memory.write [] 0 (filler 8)]).blocks.length = 1 ∧
    (Platform.reset Config.hardware [Memory.write [] 0 (filler 8)]).issueOn 1 0 (commandB 4) = none := by decide
/-- R26: with nothing to issue the ports idle. -/
theorem test_idle : answered (step { State.reset with response := some (.ok 2) }) = none := by decide
/-- R109: a reset leaves no response and the buffer as it was. -/
theorem test_reset_event : seen 2 (step { ready 0 0 0 (filler 2) with response := some (.ok 2), script := [.resetBlock] }) =
    some (none, [some 0xEE, some 0xEE]) := by decide
/-- The word placed for the next step is the instruction that runs: `ENCNEW32.BE` on the value of the ports. -/
theorem test_withFetchWord : answered (step ((ready 0x01020304 0 0 []).withFetchWord 8 0x6)) = some (.new [1, 2, 3, 4]) := by
  decide

/-- Rules R64, R65: source text with a comment, a pseudo-form and a decimal literal. -/
theorem test_assemble : assembleText Config.hardware
    [".buf 15", "  ENCINTO32.LE 0xCAFEBABE, 7 ; magic", "; nothing", "ENCINTO16 1", "ENCNEW8.LE 127"] =
    .ok [⟨0xA#4, 0xCAFEBABE#64, 7, 15⟩, ⟨0xD#4, 1#64, 0, 15⟩, ⟨0x0#4, 127#64, 0, 0⟩] := by rfl
theorem test_assemble_refuses_value : assembleText Config.hardware ["ENCNEW8.BE 0x100"] = .error .valueTooLarge := by rfl
theorem test_assemble_refuses_offset : assembleText Config.hardware ["ENCINTO8.BE 1, 0x100000000"] =
    .error .offsetTooLarge := by rfl
theorem test_assemble_refuses_length : assembleText Config.hardware [".buf 4294967296"] = .error .lengthTooLarge := by rfl
theorem test_assemble_refuses_text : assembleText Config.hardware ["ENCNEW24.BE 1"] = .error .notALine := by rfl

/-! Witnesses: states and operands that meet the hypotheses of the obligations, clause by clause -/

/-- A 2-byte write that fits exactly, one that does not, and an ENCNEW. -/
def fitting : Command := ⟨0xD#4, 0xABCD#64, 14, 16⟩
def failing : Command := ⟨0xD#4, 0xABCD#64, 15, 16⟩
def encnew : Command := ⟨0x2#4, 1#64, 0, 0⟩
def other : Command := ⟨0x8#4, 0x7F#64, 0, 16⟩

def running (script : List HostEvent) : State := { ready 0 0 0 (filler 16) with script := script }

theorem witness_StepRunsTheDecodedCommand :
    (running [.issue fitting]).script = .issue fitting :: [] ∧ hasStopped (running [.issue fitting]) = false := by decide
theorem witness_PlacedWordRunsNext : decodeTableWord 8 0xF = some .encinto64Be := by decide
theorem witness_EncnewIgnoresOffsetLenAndBuffer : Instr.encnew64Be.isInto = false := by decide
theorem witness_EncnewEqualsEncintoIntoExactBuffer :
    Instr.encnew32Le.isInto = false ∧ Instr.encinto32Le.isInto = true ∧
    Instr.encnew32Le.width = Instr.encinto32Le.width ∧ Instr.encnew32Le.order = Instr.encinto32Le.order ∧
    (ready 5 0 4 (filler 4)).ports.offset = 0 ∧ (ready 5 0 4 (filler 4)).ports.len = Instr.encnew32Le.width.bytes := by
  decide

/-- The four bounds clauses of the ENCINTO statements at their boundaries, for a width of `w` bytes. -/
def boundsWitness (w : Nat) : Bool :=
  decide (offsetOperand (ready 5 (16 - w) 16 []) + w ≤ lenOperand (ready 5 (16 - w) 16 [])) &&
  decide (lenOperand (ready 5 (17 - w) 16 []) < offsetOperand (ready 5 (17 - w) 16 []) + w) &&
  decide (offsetOperand (ready 5 (15 - w) 16 []) + w < lenOperand (ready 5 (15 - w) 16 [])) &&
  decide (lenOperand (ready 5 (16 - w) 16 []) ≤ offsetOperand (ready 5 (16 - w) 16 []) + w)

theorem witness_Encinto8WritesTheByte : boundsWitness 1 = true := by decide
theorem witness_Encinto16WritesTwoBytes :
    boundsWitness 2 = true ∧
    [0x34#8, 0x12#8] = [(0x1234#64).extractLsb' 0 8, (0x1234#64).extractLsb' 8 8] ∧
    [0x12#8, 0x34#8] = [(0x1234#64).extractLsb' 8 8, (0x1234#64).extractLsb' 0 8] := by decide
theorem witness_Encinto32WritesFourBytes :
    boundsWitness 4 = true ∧
    [4#8, 3#8, 2#8, 1#8] = [(0x01020304#64).extractLsb' 0 8, (0x01020304#64).extractLsb' 8 8,
      (0x01020304#64).extractLsb' 16 8, (0x01020304#64).extractLsb' 24 8] ∧
    [1#8, 2#8, 3#8, 4#8] = [(0x01020304#64).extractLsb' 24 8, (0x01020304#64).extractLsb' 16 8,
      (0x01020304#64).extractLsb' 8 8, (0x01020304#64).extractLsb' 0 8] := by decide
theorem witness_Encinto64WritesEightBytes :
    boundsWitness 8 = true ∧
    [8#8, 7#8, 6#8, 5#8, 4#8, 3#8, 2#8, 1#8] =
      (List.range 8).map (fun k => (0x0102030405060708#64).extractLsb' (8 * k) 8) ∧
    [1#8, 2#8, 3#8, 4#8, 5#8, 6#8, 7#8, 8#8] =
      (List.range 8).map (fun k => (0x0102030405060708#64).extractLsb' (8 * (7 - k)) 8) := by decide
/-- The repetition clause of the four statements above. -/
theorem witness_Encinto_repeated :
    Memory.wf (ready 5 0 16 (filler 16)).buffer = true ∧
    (∃ t, exec .encinto8Le (ready 5 0 16 (filler 16)) = .next t) ∧
    (∃ t, exec .encinto16Be (ready 5 0 16 (filler 16)) = .next t) ∧
    (∃ t, exec .encinto32Le (ready 5 0 16 (filler 16)) = .next t) ∧
    ∃ t, exec .encinto64Be (ready 5 0 16 (filler 16)) = .next t :=
  ⟨by decide, ⟨_, rfl⟩, ⟨_, rfl⟩, ⟨_, rfl⟩, ⟨_, rfl⟩⟩
theorem witness_BufferAfterEncinto : Instr.encinto16Le.isInto = true ∧ boundsWitness 2 = true := by decide
theorem witness_LaneSelectsAByteOfTheValue : 0 < Width.w8.bytes ∧ 7 < Width.w64.bytes := by decide
theorem witness_OrdersPutTheHighByteAtOppositeEnds : 0 < Width.w8.bytes ∧ 7 < Width.w64.bytes := by decide
theorem witness_BytesAreALanePermutation :
    3 < Width.w32.bytes ∧ bytes 0x101 .w8 .big = bytes 1 .w8 .big := by decide
theorem witness_DecodeRefInvertsBytes : 0xABCD < 2 ^ Width.w16.bits := by decide
theorem witness_EndianSwapTwiceIsIdentity : 0x01020304 < 2 ^ Width.w32.bits := by decide
theorem witness_WideBytesAreTwoHalves : Width.w64.bytes = 2 * Width.w32.bytes := by decide
theorem witness_UpperValueBitsAreIgnored :
    (0xFFFFFFFFFFFF12FE#64).toNat % 2 ^ Instr.encnew16Le.width.bits =
      (ready 0x12FE 0 0 []).ports.value.toNat % 2 ^ Instr.encnew16Le.width.bits := by decide
theorem witness_BoundsPredicateIsExact :
    0 < 1 ∧ 8 ≤ 8 ∧ 8 < 9 ∧ Instr.encinto8Le.isInto = true ∧ Instr.encinto8Be.isInto = true ∧
    Instr.encinto8Le.width = Instr.encinto8Be.width ∧
    (∃ t, exec .encinto8Le (ready 1 0 1 []) = .next t) ∧
    ∃ u, exec .encinto8Be { ready 1 0 1 [] with ports := { (ready 1 0 1 []).ports with value := 2 } } = .next u :=
  ⟨by decide, by decide, by decide, rfl, rfl, rfl, ⟨_, rfl⟩, ⟨_, rfl⟩⟩
theorem witness_BoundsSumNeverWraps : 4 ≤ 4 := by decide
theorem witness_BoundsCheckMeetsThePredicate : 4 ≤ 32 := by decide
theorem witness_EveryCommandAnswersWithItsShape :
    Instr.encnew8Le.isInto = false ∧ Instr.encinto8Be.isInto = true ∧ boundsWitness 1 = true := by decide
theorem witness_ResultPortsCarryTheResponse :
    1 ≤ (filler 1).length ∧ (filler 8).length ≤ 8 ∧ 7 < 8 := by decide
theorem witness_ResultPortsIdleAtZero :
    hasStopped (running []) = false ∧ (running []).script = [] ∧
    hasStopped (running [.present []]) = false ∧ (running [.present []]).script = .present [] :: [] ∧
    hasStopped (running [.resetBlock]) = false ∧ (running [.resetBlock]).script = .resetBlock :: [] := by decide
theorem witness_FailingCommandChangesNothing :
    ∃ t, exec .encinto8Le (ready 1 1 1 (filler 1)) = .next t ∧ isErr t.response = true := ⟨_, rfl, rfl⟩
theorem witness_ErrorIsNotSticky :
    ({ running [.issue failing, .issue fitting] with policy := .carryOn }).policy = .carryOn ∧
    (running [.issue failing, .issue fitting]).script = .issue failing :: .issue fitting :: [] ∧
    failing.instr.isInto = true ∧ ¬fitsBuffer failing := by decide
theorem witness_ReferenceSequencerStopsAtError :
    (running [.issue failing]).policy = .stopAtError ∧ (running [.issue failing]).faulted = false ∧
    (running [.issue failing]).script = .issue failing :: [] ∧ failing.instr.isInto = true ∧ ¬fitsBuffer failing := by
  decide
theorem witness_UnfaultedRunHadNoError :
    (isErr (running [.issue fitting]).response = true → (running [.issue fitting]).faulted = true) ∧
    ∃ t, runSteps 2 (running [.issue fitting]) = .next t ∧ t.faulted = false ∧ 2 ≤ 2 :=
  ⟨by decide, _, rfl, rfl, by decide⟩
theorem witness_FaultedRunStaysFaulted :
    ∃ s t, s.faulted = true ∧ runSteps 1 s = .next t :=
  ⟨{ running [.issue failing] with policy := .carryOn, faulted := true }, _, rfl, rfl⟩
theorem witness_EveryStepCompletes :
    hasStopped { running [] with faulted := true } = true ∧ hasStopped (running [.issue failing]) = false := by decide
theorem witness_WritesStayInsideTheBuffer :
    (∃ t, exec .encinto16Be (ready 5 3 5 (filler 8)) = .next t) ∧
    lenOperand (ready 5 3 5 (filler 8)) ≤ 5 ∧ 2 < offsetOperand (ready 5 3 5 (filler 8)) ∧
    offsetOperand (ready 5 3 5 (filler 8)) + Instr.encinto16Be.width.bytes ≤ 5 :=
  ⟨⟨_, rfl⟩, by decide, by decide, by decide⟩
theorem witness_RepeatingACommandChangesNothing :
    Memory.wf (ready 5 3 5 (filler 8)).buffer = true ∧ ∃ t, exec .encinto16Be (ready 5 3 5 (filler 8)) = .next t :=
  ⟨by decide, _, rfl⟩
theorem witness_CommandsTakeEffectInIssueOrder :
    (running [.issue fitting, .issue other]).script = [fitting, other].map .issue ∧
    ({ running [] with policy := .carryOn }).policy = .carryOn ∧
    (running [.issue fitting, .issue other]).faulted = false ∧
    ∀ c ∈ [fitting, other], c.instr.isInto = true → fitsBuffer c := by decide
theorem witness_LaterWriteStands :
    (running [.issue fitting, .issue fitting]).faulted = false ∧
    (running [.issue fitting, .issue fitting]).script = .issue fitting :: .issue fitting :: [] ∧
    fitting.instr.isInto = true ∧ fitsBuffer fitting ∧ fitting.offset ≤ 15 ∧
    15 < fitting.offset + fitting.instr.width.bytes ∧
    other.instr.isInto = true ∧ fitsBuffer other ∧ ¬(other.offset ≤ 14 ∧ 14 < other.offset + other.instr.width.bytes) := by
  decide
theorem witness_DisjointCommandsCommute :
    Memory.wf (running []).buffer = true ∧ (running []).faulted = false ∧ fitting.instr.isInto = true ∧
    other.instr.isInto = true ∧ fitsBuffer fitting ∧ fitsBuffer other ∧
    other.offset + other.instr.width.bytes ≤ fitting.offset := by decide

/-- Another writer that shares position 15 with `fitting` and also writes position 3. -/
def rival : Memory := [(3, 0x11#8), (15, 0x22#8)]

/-- The bytes `fitting` writes, by position. -/
def mineAt (a : Nat) : Option Byte :=
  if fitting.offset ≤ a ∧ a < fitting.offset + fitting.instr.width.bytes then
    (bytes (fitting.value.toNat % 2 ^ fitting.instr.width.bits) fitting.instr.width fitting.instr.order)[a - fitting.offset]?
  else none

theorem witness_RacingWritersLeaveEitherByte :
    hasStopped (running [.issueRacing fitting rival]) = false ∧
    (running [.issueRacing fitting rival]).script = .issueRacing fitting rival :: [] ∧
    fitting.instr.isInto = true ∧ fitsBuffer fitting ∧ Memory.wf rival = true ∧
    (Memory.read rival 13 = none ∧ mineAt 13 = none) ∧ (Memory.read rival 14 = none ∧ mineAt 14 ≠ none) ∧
    (Memory.read rival 3 ≠ none ∧ mineAt 3 = none) ∧ (Memory.read rival 15 ≠ none ∧ mineAt 15 ≠ none) := by decide
theorem witness_DisjointWritersNeedNoOrder :
    hasStopped (running [.issueRacing fitting [(13, 0x11#8)]]) = false ∧
    (running [.issueRacing fitting [(13, 0x11#8)]]).script = .issueRacing fitting [(13, 0x11#8)] :: [] ∧
    Memory.wf (running [.issueRacing fitting [(13, 0x11#8)]]).buffer = true ∧
    ∀ cell ∈ [((13, 0x11#8) : Host.Cell)],
      cell.1 < fitting.offset ∨ fitting.offset + fitting.instr.width.bytes ≤ cell.1 := by decide

/-- P1's first two fields. -/
def fields : List ChainField := [⟨.w32, .big, 0xCAFEBABE⟩, ⟨.w16, .big, 0x0001⟩]

theorem witness_ChainedWritesLandSideBySide :
    (running (chain 6 0 fields ++ [.issue (ChainField.command ⟨.w8, .big, 1⟩ 6 6)])).faulted = false ∧
    0 + chainLength fields ≤ 6 ∧ (fields[1]?).isSome = true ∧
    6 < 0 + chainLength fields + Width.w8.bytes ∧
    [HostEvent.issue (ChainField.command ⟨.w8, .big, 1⟩ 6 6)] =
      .issue (ChainField.command ⟨.w8, .big, 1⟩ (0 + chainLength fields) 6) :: [] := by decide
theorem witness_ResetChangesNoOutcome :
    hasStopped (running [.resetBlock, .issue failing]) = false ∧
    (running [.resetBlock, .issue failing]).script = .resetBlock :: .issue failing :: [] := by decide
theorem witness_PresentedBufferStands :
    hasStopped (running [.present rival]) = false ∧ (running [.present rival]).script = .present rival :: [] := by decide
theorem witness_OutcomeDependsOnInputsOnly :
    (running [.resetBlock]).ports = (running []).ports ∧ (running [.resetBlock]).buffer = (running []).buffer := by decide
theorem witness_EveryStepKeepsTheInvariant :
    (running [.issueRacing fitting rival]).Inv ∧ ∃ t, step (running [.issueRacing fitting rival]) = .next t :=
  ⟨⟨by decide, by decide, by decide, by decide, by simp [running, ready, State.reset], by decide⟩, _, rfl⟩
theorem witness_StepIntoUnfaultedShowsNoError :
    (isErr (running [.issue fitting]).response = true → (running [.issue fitting]).faulted = true) ∧
    ∃ t, step (running [.issue fitting]) = .next t ∧ t.faulted = false ∧
      ∃ u, step (running [.issue failing]) = .next u ∧ isErr u.response = true :=
  ⟨by decide, _, rfl, rfl, _, rfl, rfl⟩
theorem witness_InstancesAreFixed :
    (∀ m ∈ twoOnOne.buffers, Memory.wf m = true ∧ Memory.within twoInstances m = true) ∧
    Platform.wf twoInstances twoOnOne = true ∧ commandA.wf twoInstances = true ∧
    (twoOnOne.issueOn 0 0 commandA).isSome = true := by decide
theorem witness_InstancesShareOnlyTheBuffer :
    0 < twoOnOne.blocks.length ∧ twoOnOne.buffers[0]? = some (stateOfCommand commandA (Memory.write [] 0 (filler 8))).buffer ∧
    (stateOfCommand commandA (Memory.write [] 0 (filler 8))).ports = commandA := by decide
theorem witness_InstancesNeedNoOrder :
    (0 : Nat) ≠ 1 ∧ 0 < twoOnOne.blocks.length ∧ 1 < twoOnOne.blocks.length ∧
    twoOnOne.buffers[0]? = some (Memory.write [] 0 (filler 8)) ∧ Memory.wf (Memory.write [] 0 (filler 8)) = true ∧
    commandA.offset + commandA.instr.width.bytes ≤ (commandB 4).offset := by decide
theorem witness_AssemblerDrivesThePorts :
    0xFF < 2 ^ Width.w8.bits ∧ 2 ^ Width.w8.bits ≤ 0x100 ∧ 2 ^ 32 - 1 < 2 ^ Config.hardware.addrBits ∧
    2 ^ Config.hardware.addrBits ≤ 2 ^ 32 := by decide

end Sys2Proof.Tests
end

section
/-! PROOFS. The byte-order function of rules R33 and R34 and its mathematical inverse. -/

namespace Sys2Proof.Machine

/-- Rule R33 read as arithmetic: a lane is one base-256 digit of the value. -/
theorem toNat_lane (v : Nat) (w : Width) (o : Order) (k : Nat) :
    (lane v w o k).toNat = v / 2 ^ sh w o k % 256 := by
  have mask : (v >>> sh w o k) &&& 0xFF = (v >>> sh w o k) % 2 ^ 8 := Nat.and_two_pow_sub_one_eq_mod _ 8
  rw [lane, mask, BitVec.toNat_ofNat, Nat.mod_mod, Nat.shiftRight_eq_div_pow]
  rfl

/-- One more byte position is one more factor of 256. -/
theorem two_pow_eight_mul_succ (n : Nat) : 2 ^ (8 * (n + 1)) = 256 * 2 ^ (8 * n) := by ring

/-- The little-endian lanes above the lowest are the lanes of the value without its lowest byte. -/
theorem lane_little_succ (v : Nat) (w : Width) (k : Nat) :
    lane v w .little (k + 1) = lane (v / 256) w .little k := by
  apply BitVec.eq_of_toNat_eq
  simp only [toNat_lane, sh, two_pow_eight_mul_succ, Nat.div_div_eq_div_mul]

/-- The lowest `n` little-endian lanes hold the value modulo `2 ^ (8 * n)`. -/
theorem littleValue_map_lane (w : Width) (n v : Nat) :
    littleValue ((List.range n).map (lane v w .little)) = v % 2 ^ (8 * n) := by
  induction n generalizing v with
  | zero => simp [littleValue, Nat.mod_one]
  | succ n ih =>
    have upper : lane v w .little ∘ Nat.succ = lane (v / 256) w .little :=
      funext fun k => lane_little_succ v w k
    have lowest : (lane v w .little 0).toNat = v % 256 := by simp [toNat_lane, sh]
    calc littleValue ((List.range (n + 1)).map (lane v w .little))
        = v % 256 + 256 * (v / 256 % 2 ^ (8 * n)) := by
          rw [List.range_succ_eq_map, List.map_cons, List.map_map, upper, littleValue, lowest, ih]
      _ = v % (256 * 2 ^ (8 * n)) := Nat.mod_mul.symm
      _ = v % 2 ^ (8 * (n + 1)) := by rw [two_pow_eight_mul_succ]

/-- Rule R38: a big-endian lane is the little-endian lane at the mirrored place. -/
theorem lane_big (v : Nat) (w : Width) (k : Nat) :
    lane v w .big k = lane v w .little (w.bytes - 1 - k) := rfl

/-- Law L-3: the big-endian bytes are the little-endian bytes reversed. -/
theorem bytes_big (v : Nat) (w : Width) : bytes v w .big = (bytes v w .little).reverse :=
  List.ext_getElem (by simp [bytes]) fun k _ _ => by simp [bytes, lane_big]

/-- Both orders read back alike: the reversal in `decodeRef` undoes the one of `bytes_big`. -/
theorem decodeRef_bytes (v : Nat) (w : Width) (o : Order) :
    decodeRef (bytes v w o) o = v % 2 ^ w.bits := by
  cases o with
  | little => exact littleValue_map_lane w w.bytes v
  | big =>
    rw [bytes_big, decodeRef, List.reverse_reverse]
    exact littleValue_map_lane w w.bytes v

/-- Settles O23: `decodeRef_bytes`, and a value of the width is its own remainder. -/
theorem decodeRefInvertsBytes : Obligations.DecodeRefInvertsBytes := fun v w o =>
  ⟨decodeRef_bytes v w o, fun hv => (decodeRef_bytes v w o).trans (Nat.mod_eq_of_lt hv)⟩

end Sys2Proof.Machine
end

section
/-! PROOFS. What one instruction does, an equation per case, and what its outcome depends on (rules R10, R13, R22). -/

namespace Sys2Proof.Machine

/-- Rule R67: an ENCNEW command responds with the bytes of its value. -/
theorem exec_of_encnew {i : Instr} (s : State) (hi : i.isInto = false) :
    exec i s = .next (respond (.new (bytes (valueOperand i.width s) i.width i.order)) s) := by
  rw [exec_eq, hi]
  rfl

/-- Rule R82: an ENCINTO command that fits writes all its bytes. -/
theorem exec_of_encinto_fits {i : Instr} {s : State} (hi : i.isInto = true)
    (hfit : offsetOperand s + i.width.bytes ≤ lenOperand s) :
    exec i s = .next (respond (.ok i.width.bytes)
      (memWrite (offsetOperand s) (bytes (valueOperand i.width s) i.width i.order) s)) := by
  rw [exec_eq, hi]
  rcases encInto_cases Config.hardware.strictBounds i.width i.order s with ⟨ho, _⟩ | ⟨_, he⟩
  · exact absurd ((overflow_hardware _ _ _).mp ho) (Nat.not_lt.mpr hfit)
  · exact he

/-- Rule R81: an ENCINTO command that does not fit reports the error. -/
theorem exec_of_encinto_overflows {i : Instr} {s : State} (hi : i.isInto = true)
    (hover : lenOperand s < offsetOperand s + i.width.bytes) :
    exec i s = .next (raiseBufferOverflow s) := by
  rw [exec_eq, hi]
  rcases encInto_cases Config.hardware.strictBounds i.width i.order s with ⟨_, he⟩ | ⟨ho, _⟩
  · exact he
  · exact absurd ((overflow_hardware _ _ _).mpr hover) (Bool.eq_false_iff.mp ho)

/-- The ports and the buffer settle the response and the buffer left behind, and `exec` changes nothing else: one pair
`r`, `m'` serves every state with these inputs, whatever the host's fields hold (rules R10, R13). -/
theorem exec_of_inputs (i : Instr) (c : Command) (m : Memory) :
    ∃ (r : Response) (m' : Memory), ∀ s : State, s.ports = c → s.buffer = m →
      exec i s = .next (respond r { s with buffer := m' }) := by
  cases hi : i.isInto with
  | false =>
    refine ⟨.new (bytes (c.value.toNat % 2 ^ i.width.bits) i.width i.order), m, fun s hports hbuffer => ?_⟩
    subst hports hbuffer
    exact exec_of_encnew s hi
  | true =>
    by_cases hfit : c.offset + i.width.bytes ≤ c.len
    · refine ⟨.ok i.width.bytes,
        Memory.write m c.offset (bytes (c.value.toNat % 2 ^ i.width.bits) i.width i.order), fun s hports hbuffer => ?_⟩
      subst hports hbuffer
      exact exec_of_encinto_fits hi hfit
    · refine ⟨.err .bufferOverflowError, m, fun s hports hbuffer => ?_⟩
      subst hports hbuffer
      exact exec_of_encinto_overflows hi (Nat.lt_of_not_le hfit)

/-- Rule R120, with the frame: every instruction completes and touches the buffer and the response only. -/
theorem exec_frame (i : Instr) (s : State) :
    ∃ (r : Response) (m : Memory), exec i s = .next (respond r { s with buffer := m }) := by
  obtain ⟨r, m, hexec⟩ := exec_of_inputs i s.ports s.buffer
  exact ⟨r, m, hexec s rfl rfl⟩

/-- Settles O30: one equation of `exec` for each of the three shapes; the other two clauses contradict the case. -/
theorem everyCommandAnswersWithItsShape : Obligations.EveryCommandAnswersWithItsShape := by
  intro i s
  cases hi : i.isInto with
  | false => exact ⟨_, _, exec_of_encnew s hi, rfl, fun _ => ⟨_, rfl, bytes_length _ _ _⟩, nofun, nofun⟩
  | true =>
    by_cases hfit : offsetOperand s + i.width.bytes ≤ lenOperand s
    · exact ⟨_, _, exec_of_encinto_fits hi hfit, rfl, nofun, fun _ _ => rfl,
        fun _ hover => absurd hfit (Nat.not_le.mpr hover)⟩
    · exact ⟨_, _, exec_of_encinto_overflows hi (Nat.lt_of_not_le hfit), rfl, nofun,
        fun _ h => absurd h hfit, fun _ _ => rfl⟩

/-- Settles O51: `exec_of_inputs` at the common ports and buffer. -/
theorem outcomeDependsOnInputsOnly : Obligations.OutcomeDependsOnInputsOnly := by
  intro i s t hports hbuffer
  obtain ⟨r, m, hexec⟩ := exec_of_inputs i t.ports t.buffer
  exact ⟨_, _, hexec s hports hbuffer, hexec t rfl rfl, rfl, rfl⟩

end Sys2Proof.Machine
end

section
/-! PROOFS. The step of a running host, an equation per event of the script, and how a command word comes to run. -/

namespace Sys2Proof.Machine

theorem step_idle {s : State} (hrun : hasStopped s = false) (hs : s.script = []) :
    step s = .next (clearResponse s) := by
  rw [step_of_running s hrun, runNextEvent, hs]

theorem step_present {s : State} {m : Memory} {rest : List HostEvent} (hrun : hasStopped s = false)
    (hs : s.script = .present m :: rest) : step s = .next (presentBuffer m rest s) := by
  rw [step_of_running s hrun, runNextEvent, hs]

theorem step_resetBlock {s : State} {rest : List HostEvent} (hrun : hasStopped s = false)
    (hs : s.script = .resetBlock :: rest) : step s = .next (resetEvent rest s) := by
  rw [step_of_running s hrun, runNextEvent, hs]

/-- The host receives what `exec` answers to the command it has put on the ports (rule R10). -/
theorem step_issue {s t : State} {c : Command} {rest : List HostEvent} (hrun : hasStopped s = false)
    (hs : s.script = .issue c :: rest) (hexec : exec c.instr (presentCommand c rest s) = .next t) :
    step s = .next (receive t) := by
  have hports : runPorts (presentCommand c rest s) = .next t := hexec
  rw [step_of_running s hrun, runNextEvent, hs]
  simp only [issueCommand, hports, mapNext_next]

/-- A word the table decodes decodes as its four low bits (rules R54, R62). -/
theorem eq_decodeCmd_of_decodeTableWord {nbits w : Nat} {i : Instr} (h : decodeTableWord nbits w = some i) :
    i = decodeCmd (BitVec.ofNat 4 w) := by
  by_cases hw : w < 16
  · simpa [decodeTableWord, decodeWord, hw, eq_comm] using h
  · simp [decodeTableWord, decodeWord, hw] at h

/-- A host about to issue a placed command has not stopped: placing clears the mark (log entry 12). -/
theorem hasStopped_placeCommand (cmd : BitVec 4) (s : State) : hasStopped (placeCommand cmd s) = false := rfl

/-- Settles O6: `step_issue` at the state `exec_frame` gives. -/
theorem stepRunsTheDecodedCommand : Obligations.StepRunsTheDecodedCommand := by
  intro s c rest hs hrun
  obtain ⟨r, m, hexec⟩ := exec_frame c.instr (presentCommand c rest s)
  exact ⟨_, hexec, step_issue hrun hs hexec⟩

/-- Settles O7: the placed command is the next event of a running host; `exec` keeps the mark that placing cleared, so
what is received sets it by the response alone. -/
theorem placedWordRunsNext : Obligations.PlacedWordRunsNext := by
  intro s nbits w i hdecode
  obtain rfl := eq_decodeCmd_of_decodeTableWord hdecode
  obtain ⟨r, m, hexec⟩ := exec_frame (decodeCmd (BitVec.ofNat 4 w))
    { s with ports := { s.ports with cmd := BitVec.ofNat 4 w }, faulted := false }
  exact ⟨_, hexec, step_issue (hasStopped_placeCommand _ s) (placeCommand_script _ s) hexec⟩

/-- Settles O32: the ports by definition, the three events by their step equations. -/
theorem resultPortsIdleAtZero : Obligations.ResultPortsIdleAtZero :=
  ⟨⟨rfl, rfl, rfl⟩, rfl, fun _ hrun =>
    ⟨step_idle hrun, fun _ _ hs => ⟨_, step_present hrun hs, rfl⟩, fun _ hs => ⟨_, step_resetBlock hrun hs, rfl⟩⟩⟩

/-- Settles O50. -/
theorem presentedBufferStands : Obligations.PresentedBufferStands := fun _ _ _ hrun hs => step_present hrun hs

/-- Settles O53: each field of the invariant at the values of reset; the buffer, the script and the response are empty. -/
theorem resetMeetsTheInvariant : Obligations.ResetMeetsTheInvariant := by
  refine ⟨?_, rfl, Memory.read_nil⟩
  exact {
    bufferWf := rfl
    bufferWithin := rfl
    portsWf := by decide
    scriptWf := nofun
    responseLegal := nofun
    errFaults := nofun }

end Sys2Proof.Machine
end

section
/-! PROOFS. The lanes of port OUT (rules R6, R23). -/

namespace Sys2Proof.Machine

/-- Byte `k` of the packed number is `bs[k]`, and 0 from `bs.length` up. -/
theorem packLanes_div_mod (bs : List Byte) (k : Nat) :
    packLanes bs / 2 ^ (8 * k) % 256 = (bs.getD k 0#8).toNat := by
  induction bs generalizing k with
  | nil => simp [packLanes]
  | cons b bs ih =>
    have hb : b.toNat < 256 := b.isLt
    cases k with
    | zero => simp only [packLanes, Nat.mul_zero, Nat.pow_zero, List.getD_cons_zero]; omega
    | succ k =>
      have hdrop : packLanes (b :: bs) / 256 = packLanes bs := by simp only [packLanes]; omega
      rw [two_pow_eight_mul_succ, ← Nat.div_div_eq_div_mul, hdrop, ih, List.getD_cons_succ]

/-- A lane of a 64-bit port holds the byte of the number driven on it: the reduction modulo `2 ^ 64` cuts off whole
lanes above. -/
theorem toNat_outLane_ofNat (n k : Nat) (hk : k < 8) :
    (outLane (BitVec.ofNat 64 n) k).toNat = n / 2 ^ (8 * k) % 256 := by
  have hsplit : 2 ^ 64 = 2 ^ (8 * k) * 2 ^ (64 - 8 * k) := by rw [← Nat.pow_add]; congr 1; omega
  have hdvd : 2 ^ 8 ∣ 2 ^ (64 - 8 * k) := Nat.pow_dvd_pow 2 (by omega)
  rw [outLane, BitVec.extractLsb'_toNat, BitVec.toNat_ofNat, Nat.shiftRight_eq_div_pow, hsplit,
    Nat.mod_mul_right_div_self, Nat.mod_mod_of_dvd _ hdvd]
  rfl

/-- Rule R23: OUT shows the returned bytes on its low lanes and 0 on the others. -/
theorem outLane_outPort_new (bs : List Byte) {k : Nat} (hk : k < 8) :
    outLane (outPort (some (.new bs))) k = bs.getD k 0#8 := by
  apply BitVec.eq_of_toNat_eq
  rw [outPort, toNat_outLane_ofNat _ _ hk, packLanes_div_mod]

/-- Four bits of COUNT hold every number of bytes up to the widest command's. -/
theorem toNat_ofNat_count {n : Nat} (hn : n ≤ 8) : (BitVec.ofNat 4 n).toNat = n := by
  rw [BitVec.toNat_ofNat, Nat.mod_eq_of_lt (by omega)]

theorem width_bytes_le (w : Width) : w.bytes ≤ 8 := by cases w <;> decide

/-- Settles O31: the lanes by `outLane_outPort_new`, where a list read past its end gives the 0; COUNT fits. -/
theorem resultPortsCarryTheResponse : Obligations.ResultPortsCarryTheResponse := by
  refine ⟨fun bs _ hlen => ⟨rfl, toNat_ofNat_count hlen, fun k hk => ?_⟩,
    fun w => ⟨rfl, toNat_ofNat_count (width_bytes_le w), rfl⟩, rfl, rfl, rfl⟩
  rw [outLane_outPort_new bs hk]
  split
  · rfl
  · next hpast => exact List.getD_eq_default _ _ (Nat.le_of_not_lt hpast)

end Sys2Proof.Machine
end

section
/-! PROOFS. What one command keeps of a buffer and of a platform (rules R27, R28, R108). -/

namespace Sys2Proof.Machine

/-- A command writes, or leaves the buffer as it was; either keeps the canonical form. -/
theorem wf_commandEffect (m : Memory) (c : Command) (h : Memory.wf m = true) :
    Memory.wf (commandEffect m c) = true := by
  rw [commandEffect]
  split
  · exact Memory.wf_write _ _ _ h
  · exact h

/-- A write that fits ends at LEN, and LEN is a number the port can carry (rule R28). -/
theorem within_commandEffect (cfg : Config) (m : Memory) (c : Command) (hc : c.wf cfg = true)
    (h : Memory.within cfg m = true) : Memory.within cfg (commandEffect m c) = true := by
  obtain ⟨_, hlen⟩ := (command_wf_iff cfg c).mp hc
  rw [commandEffect]
  split
  · next hwrites =>
    obtain ⟨_, hfit⟩ := hwrites
    refine Memory.within_write cfg _ _ _ h ?_
    rw [bytes_length]
    exact hfit.trans hlen.le
  · exact h

theorem platform_wf_iff (cfg : Config) (p : Platform) :
    Platform.wf cfg p = true ↔
      p.blocks.length = cfg.instances ∧ ∀ m ∈ p.buffers, Memory.wf m = true ∧ Memory.within cfg m = true := by
  simp [Platform.wf]

/-- A well-formed platform stays so when one block answers and one buffer takes contents as good as the others'. -/
theorem platform_wf_update {cfg : Config} {p : Platform} (k b : Nat) (c : Command) (r : Option Response) {m : Memory}
    (hp : Platform.wf cfg p = true) (hwf : Memory.wf m = true) (hwithin : Memory.within cfg m = true) :
    Platform.wf cfg (p.update k b c r m) = true := by
  obtain ⟨hblocks, hbuffers⟩ := (platform_wf_iff cfg p).mp hp
  refine (platform_wf_iff _ _).mpr ⟨by rw [update_blocks, List.length_set, hblocks], fun n hn => ?_⟩
  rw [update_buffers] at hn
  rcases List.mem_or_eq_of_mem_set hn with hold | rfl
  · exact hbuffers n hold
  · exact ⟨hwf, hwithin⟩

/-- Issuing keeps well-formedness: the command puts `commandEffect` into its buffer, which keeps what a buffer must keep. -/
theorem platform_wf_issueOn {cfg : Config} {p q : Platform} {k b : Nat} {c : Command} (hp : Platform.wf cfg p = true)
    (hc : c.wf cfg = true) (h : p.issueOn k b c = some q) : Platform.wf cfg q = true := by
  obtain ⟨m, r, _, hm, rfl⟩ := issueOn_cases k b c p q h
  obtain ⟨_, hbuffers⟩ := (platform_wf_iff cfg p).mp hp
  obtain ⟨hwf, hwithin⟩ := hbuffers m (List.mem_of_getElem? hm)
  exact platform_wf_update k b c _ hp (wf_commandEffect m c hwf) (within_commandEffect cfg m c hc hwithin)

/-- Settles O57: reset builds the configured number of instances, and well-formedness, which counts them, is kept. -/
theorem instancesAreFixed : Obligations.InstancesAreFixed := by
  constructor
  · intro cfg bufs hbufs
    exact ⟨(platform_wf_iff _ _).mpr ⟨reset_blocks_length cfg bufs, hbufs⟩, reset_blocks_length cfg bufs⟩
  · intro cfg p q k b c hp hc h
    have hq := platform_wf_issueOn hp hc h
    obtain ⟨hcount, _⟩ := (platform_wf_iff cfg q).mp hq
    exact ⟨hq, hcount⟩

end Sys2Proof.Machine
end

section
/-! PROOFS. The byte sequences in both orders: which byte of the value stands where, and what they carry (rules R33 to
R38). -/

namespace Sys2Proof.Machine

theorem width_bytes_pos (w : Width) : 0 < w.bytes := by cases w <;> decide

/-- Rule R33: the shift amounts are whole lanes, and the lane is one of the width's. -/
theorem sh_eq_lane (w : Width) (o : Order) {k : Nat} (hk : k < w.bytes) : ∃ j, j < w.bytes ∧ sh w o k = 8 * j := by
  cases o with
  | little => exact ⟨k, hk, rfl⟩
  | big => exact ⟨w.bytes - 1 - k, by omega, rfl⟩

/-- On the port VALUE a lane is eight wires, from the shift amount up. -/
theorem lane_eq_extractLsb' (v : BitVec 64) (w : Width) (o : Order) (k : Nat) :
    lane v.toNat w o k = v.extractLsb' (sh w o k) 8 := by
  apply BitVec.eq_of_toNat_eq
  rw [toNat_lane, BitVec.extractLsb'_toNat, Nat.shiftRight_eq_div_pow]

/-- Settles O19: the shift is a lane of the width, and a lane is a base-256 digit, eight wires of the port. -/
theorem laneSelectsAByteOfTheValue : Obligations.LaneSelectsAByteOfTheValue := by
  refine ⟨fun w o k hk => ?_, toNat_lane,
    fun v w k _ => ⟨lane_eq_extractLsb' v w .big k, lane_eq_extractLsb' v w .little k⟩⟩
  obtain ⟨j, hj, hsh⟩ := sh_eq_lane w o hk
  have hw := width_bytes_le w
  refine ⟨rfl, rfl, ?_, by omega, by omega⟩
  rw [hsh]
  simp only [List.mem_cons, List.not_mem_nil, or_false]
  omega

/-- Rule R35: big-endian significance falls with the position. -/
theorem bytes_big_getElem? (v : BitVec 64) {w : Width} {k : Nat} (hk : k < w.bytes) :
    (bytes v.toNat w .big)[k]? = some (v.extractLsb' (w.bits - 8 * (k + 1)) 8) := by
  have hshift : sh w .big k = w.bits - 8 * (k + 1) := by rw [sh_big, Width.bits]; omega
  rw [bytes_getElem? _ _ _ _ hk, lane_eq_extractLsb', hshift]

/-- Rule R36: little-endian significance rises with the position. -/
theorem bytes_little_getElem? (v : BitVec 64) {w : Width} {k : Nat} (hk : k < w.bytes) :
    (bytes v.toNat w .little)[k]? = some (v.extractLsb' (8 * k) 8) := by
  rw [bytes_getElem? _ _ _ _ hk, lane_eq_extractLsb', sh_little]

/-- Settles O20: the two ends are the positions `0` and `W - 1` of the general clause. -/
theorem ordersPutTheHighByteAtOppositeEnds : Obligations.OrdersPutTheHighByteAtOppositeEnds := by
  refine ⟨fun v w => ?_, by decide, by decide⟩
  have hfirst := width_bytes_pos w
  have hlast : w.bytes - 1 < w.bytes := by omega
  have hlow : w.bits - 8 * (w.bytes - 1 + 1) = 0 := by rw [Width.bits]; omega
  have hhigh : 8 * (w.bytes - 1) = w.bits - 8 := by rw [Width.bits]; omega
  exact ⟨bytes_big_getElem? v hfirst, hlow ▸ bytes_big_getElem? v hlast, bytes_little_getElem? v hfirst,
    hhigh ▸ bytes_little_getElem? v hlast, fun k hk => ⟨bytes_big_getElem? v hk, bytes_little_getElem? v hk⟩⟩

/-- Rule R37: one byte is the value's low 8 bits, whatever the order. -/
theorem bytes_w8 (v : Nat) (o : Order) : bytes v .w8 o = [BitVec.ofNat 8 (v % 256)] := by
  have hsh : sh .w8 o 0 = 0 := by cases o <;> rfl
  have hlane : lane v .w8 o 0 = BitVec.ofNat 8 (v % 256) := by
    apply BitVec.eq_of_toNat_eq
    rw [toNat_lane, hsh, BitVec.toNat_ofNat]
    omega
  exact congrArg (fun b => [b]) hlane

/-- Settles O21: `bytes_w8` in each order; the decoder and the shifts compute. -/
theorem oneByteHasNoOrder : Obligations.OneByteHasNoOrder :=
  ⟨rfl, rfl, rfl, rfl, rfl, rfl, fun v => ⟨bytes_w8 v .big, bytes_w8 v .little⟩⟩

/-- The lowest `n` little-endian lanes, each at its weight, add up to the value modulo `2 ^ (8 * n)`. -/
theorem sum_weighted_lanes (v : Nat) (w : Width) (n : Nat) :
    ((List.range n).map fun k => (lane v w .little k).toNat * 2 ^ (8 * k)).sum = v % 2 ^ (8 * n) := by
  induction n with
  | zero => simp [Nat.mod_one]
  | succ n ih =>
    have hpow : 2 ^ (8 * (n + 1)) = 2 ^ (8 * n) * 256 := by rw [two_pow_eight_mul_succ, Nat.mul_comm]
    rw [List.sum_range_succ, ih, toNat_lane, sh_little, hpow, Nat.mod_mul, Nat.mul_comm (2 ^ (8 * n))]

/-- Big-endian order adds up the same terms from the last to the first. -/
theorem sum_weighted_lanes_big (v : Nat) (w : Width) :
    ((List.range w.bytes).map fun k => (lane v w .big k).toNat * 2 ^ (8 * (w.bytes - 1 - k))).sum =
      ((List.range w.bytes).map fun k => (lane v w .little k).toNat * 2 ^ (8 * k)).sum :=
  Finset.sum_range_reflect (fun k => (lane v w .little k).toNat * 2 ^ (8 * k)) w.bytes

/-- Rule R38: a lane of the width lies below bit `8W` and sees nothing above it. -/
theorem lane_mod (v : Nat) {w : Width} (o : Order) {k : Nat} (hk : k < w.bytes) :
    lane (v % 2 ^ w.bits) w o k = lane v w o k := by
  obtain ⟨j, hj, hsh⟩ := sh_eq_lane w o hk
  have hsplit : 2 ^ w.bits = 2 ^ (8 * j) * 2 ^ (w.bits - 8 * j) := by
    rw [← Nat.pow_add, Width.bits]; congr 1; omega
  have hdvd : 2 ^ 8 ∣ 2 ^ (w.bits - 8 * j) := Nat.pow_dvd_pow 2 (by rw [Width.bits]; omega)
  apply BitVec.eq_of_toNat_eq
  rw [toNat_lane, toNat_lane, hsh, hsplit, Nat.mod_mul_right_div_self]
  exact Nat.mod_mod_of_dvd _ hdvd

theorem bytes_mod (v : Nat) (w : Width) (o : Order) : bytes (v % 2 ^ w.bits) w o = bytes v w o :=
  List.map_congr_left fun _ hk => lane_mod v o (List.mem_range.mp hk)

/-- Settles O22: reversal is `lane_big`, exactness the weighted sum, locality `bytes_mod`, and what reads back alike
(`decodeRef_bytes`) is alike in its low bits. -/
theorem bytesAreALanePermutation : Obligations.BytesAreALanePermutation := by
  refine ⟨fun v w k _ => ⟨toNat_lane v w .little k, lane_big v w k⟩, bytes_big, fun v w => ?_,
    fun v w o => (bytes_mod v w o).symm, fun v v' w o h => ?_⟩
  · exact ⟨sum_weighted_lanes v w w.bytes, (sum_weighted_lanes_big v w).trans (sum_weighted_lanes v w w.bytes)⟩
  · rw [← decodeRef_bytes v w o, h, decodeRef_bytes]

end Sys2Proof.Machine
end

section
/-! PROOFS. The three things one instruction can do, and what they do to the buffer (rules R30, R31, R42 to R47). -/

namespace Sys2Proof.Machine

/-- An instruction responds with its bytes, or writes them, or reports that they do not fit. -/
theorem exec_cases (i : Instr) (s : State) :
    (i.isInto = false ∧ exec i s = .next (respond (.new (bytes (valueOperand i.width s) i.width i.order)) s)) ∨
    (i.isInto = true ∧ offsetOperand s + i.width.bytes ≤ lenOperand s ∧
      exec i s = .next (respond (.ok i.width.bytes)
        (memWrite (offsetOperand s) (bytes (valueOperand i.width s) i.width i.order) s))) ∨
    (i.isInto = true ∧ lenOperand s < offsetOperand s + i.width.bytes ∧
      exec i s = .next (raiseBufferOverflow s)) := by
  cases hi : i.isInto with
  | false => exact .inl ⟨rfl, exec_of_encnew s hi⟩
  | true =>
    by_cases hfit : offsetOperand s + i.width.bytes ≤ lenOperand s
    · exact .inr (.inl ⟨rfl, hfit, exec_of_encinto_fits hi hfit⟩)
    · have hover := Nat.lt_of_not_le hfit
      exact .inr (.inr ⟨rfl, hover, exec_of_encinto_overflows hi hover⟩)

/-- Settles O12: `exec_of_encnew` at either state; the value operand is the same in both. -/
theorem encnewIgnoresOffsetLenAndBuffer : Obligations.EncnewIgnoresOffsetLenAndBuffer :=
  fun _ s _ _ _ hi => ⟨_, exec_of_encnew s hi, exec_of_encnew _ hi⟩

/-- Settles O40: only a write that fits changes the buffer, and it stays in its range, which ends at LEN or before. -/
theorem writesStayInsideTheBuffer : Obligations.WritesStayInsideTheBuffer := by
  intro i s t a hexec houtside
  rcases exec_cases i s with ⟨_, he⟩ | ⟨_, hfit, he⟩ | ⟨_, _, he⟩ <;>
    obtain rfl := Host.Outcome.next.inj (hexec.symm.trans he)
  · rfl
  · refine Memory.read_write_outside _ _ _ _ ?_
    rw [bytes_length]
    omega
  · rfl

/-- Settles O41: the case is chosen by the ports alone; where a write reaches, both buffers hold the byte written. -/
theorem bufferIsNeverRead : Obligations.BufferIsNeverRead := by
  intro i s m
  cases hi : i.isInto with
  | false => exact ⟨_, _, exec_of_encnew s hi, exec_of_encnew _ hi, rfl, fun _ => .inl ⟨rfl, rfl⟩⟩
  | true =>
    by_cases hfit : offsetOperand s + i.width.bytes ≤ lenOperand s
    · refine ⟨_, _, exec_of_encinto_fits hi hfit, exec_of_encinto_fits (s := { s with buffer := m }) hi hfit, rfl,
        fun a => ?_⟩
      by_cases hin : offsetOperand s ≤ a ∧ a < offsetOperand s + i.width.bytes
      · refine .inr ⟨rfl, hin.1, hin.2, ?_⟩
        rw [← bytes_length (valueOperand i.width s) i.width i.order] at hin
        exact (Memory.read_write _ _ _ _).trans
          ((if_pos hin).trans ((Memory.read_write _ _ _ _).trans (if_pos hin)).symm)
      · have hout : a < offsetOperand s ∨
            offsetOperand s + (bytes (valueOperand i.width s) i.width i.order).length ≤ a := by
          rw [bytes_length]; omega
        exact .inl ⟨Memory.read_write_outside _ _ _ _ hout, Memory.read_write_outside _ _ _ _ hout⟩
    · have hover := Nat.lt_of_not_le hfit
      exact ⟨_, _, exec_of_encinto_overflows hi hover, exec_of_encinto_overflows (s := { s with buffer := m }) hi hover,
        rfl, fun _ => .inl ⟨rfl, rfl⟩⟩

/-- Rule R47: writing the same bytes at the same place again changes nothing. -/
theorem Memory.write_write_same {m : Memory} (hm : Memory.wf m = true) (p : Nat) (bs : List Byte) :
    Memory.write (Memory.write m p bs) p bs = Memory.write m p bs := by
  have hwritten := Memory.wf_write m p bs hm
  refine Memory.eq_of_read_eq _ _ (Memory.wf_write _ _ _ hwritten) hwritten fun q => ?_
  rw [Memory.read_write (Memory.write m p bs), Memory.read_write m]
  split <;> rfl

/-- Settles O42: the ports are unchanged, so the same case applies again; a repeated write is `write_write_same`. -/
theorem repeatingACommandChangesNothing : Obligations.RepeatingACommandChangesNothing := by
  intro i s t hm hexec
  rcases exec_cases i s with ⟨hi, he⟩ | ⟨hi, hfit, he⟩ | ⟨hi, hover, he⟩ <;>
    obtain rfl := Host.Outcome.next.inj (hexec.symm.trans he)
  · exact exec_of_encnew _ hi
  · have hagain := Memory.write_write_same hm (offsetOperand s) (bytes (valueOperand i.width s) i.width i.order)
    refine (exec_of_encinto_fits (s := respond _ (memWrite _ _ s)) hi hfit).trans ?_
    exact congrArg (fun m => Host.Outcome.next (respond (.ok i.width.bytes) { s with buffer := m })) hagain
  · exact exec_of_encinto_overflows hi hover

@[simp] theorem Memory.contents_length (m : Memory) (n : Nat) : (Memory.contents m n).length = n := by
  simp [Memory.contents]

theorem Memory.contents_getElem? (m : Memory) {n k : Nat} (hk : k < n) :
    (Memory.contents m n)[k]? = some (Memory.read m k) := by
  simp [Memory.contents, List.getElem?_range hk]

/-- Law L-7 of any sequence that fits: the old positions before it, the sequence, the old positions after it. -/
theorem Memory.contents_write (m : Memory) {p n : Nat} {bs : List Byte} (hfit : p + bs.length ≤ n) :
    Memory.contents (Memory.write m p bs) n =
      (Memory.contents m n).take p ++ bs.map some ++ (Memory.contents m n).drop (p + bs.length) := by
  have htake : ((Memory.contents m n).take p).length = p := by simp; omega
  refine List.ext_getElem? fun k => ?_
  by_cases hk : k < n
  · rw [Memory.contents_getElem? _ hk, Memory.read_write, List.append_assoc]
    by_cases hbefore : k < p
    · rw [if_neg (by omega), List.getElem?_append_left (by omega), List.getElem?_take_of_lt hbefore,
        Memory.contents_getElem? _ hk]
    · rw [List.getElem?_append_right (by omega), htake]
      by_cases hin : k < p + bs.length
      · rw [if_pos (by omega), List.getElem?_append_left (by rw [List.length_map]; omega), List.getElem?_map,
          List.getElem?_eq_getElem (by omega)]
        rfl
      · rw [if_neg (by omega), List.getElem?_append_right (by rw [List.length_map]; omega), List.length_map,
          List.getElem?_drop, show p + bs.length + (k - p - bs.length) = k by omega, Memory.contents_getElem? _ hk]
  · rw [List.getElem?_eq_none (by simp; omega), List.getElem?_eq_none (by simp; omega)]

/-- Settles O18: the write that fits by `contents_write`, the one that does not by its equation. -/
theorem bufferAfterEncinto : Obligations.BufferAfterEncinto := by
  intro i s hi
  by_cases hfit : offsetOperand s + i.width.bytes ≤ lenOperand s
  · refine ⟨_, exec_of_encinto_fits hi hfit, fun _ => ?_, fun hover => absurd hfit (Nat.not_le.mpr hover)⟩
    have hlen := bytes_length (valueOperand i.width s) i.width i.order
    rw [← hlen] at hfit ⊢
    exact Memory.contents_write s.buffer hfit
  · exact ⟨_, exec_of_encinto_overflows hi (Nat.lt_of_not_le hfit), fun h => absurd h hfit, fun _ => rfl⟩

end Sys2Proof.Machine
end

section
/-! PROOFS. What an issued command answers and leaves, as two functions of the command, and the invariant of a run
(rules R10, R22, R28, R42, R103). -/

namespace Sys2Proof.Machine

/-- The response as a function of the command alone, beside `commandEffect` for the buffer. -/
def commandResponse (c : Command) : Response :=
  if c.instr.isInto = true then
    if fitsBuffer c then .ok c.instr.width.bytes else .err .bufferOverflowError
  else .new (bytes (c.value.toNat % 2 ^ c.instr.width.bits) c.instr.width c.instr.order)

theorem commandResponse_of_encnew {c : Command} (hi : c.instr.isInto = false) :
    commandResponse c = .new (bytes (c.value.toNat % 2 ^ c.instr.width.bits) c.instr.width c.instr.order) :=
  if_neg (by simp [hi])

theorem commandResponse_of_fits {c : Command} (hi : c.instr.isInto = true) (hfit : fitsBuffer c) :
    commandResponse c = .ok c.instr.width.bytes := by
  rw [commandResponse, if_pos hi, if_pos hfit]

theorem commandResponse_of_overflows {c : Command} (hi : c.instr.isInto = true) (hover : ¬fitsBuffer c) :
    commandResponse c = .err .bufferOverflowError := by
  rw [commandResponse, if_pos hi, if_neg hover]

/-- The command on the ports is answered by `commandResponse` and leaves `commandEffect`. -/
theorem exec_command (s : State) :
    exec s.ports.instr s =
      .next (respond (commandResponse s.ports) { s with buffer := commandEffect s.buffer s.ports }) := by
  rcases exec_cases s.ports.instr s with ⟨hi, he⟩ | ⟨hi, hfit, he⟩ | ⟨hi, hover, he⟩
  · rw [he, commandResponse_of_encnew hi, commandEffect_of_not _ _ (by simp [hi])]
    rfl
  · rw [he, commandResponse_of_fits hi hfit, commandEffect_of_writes _ _ ⟨hi, hfit⟩]
    rfl
  · have hno : ¬fitsBuffer s.ports := Nat.not_le.mpr hover
    rw [he, commandResponse_of_overflows hi hno, commandEffect_of_not _ _ fun h => hno h.2]
    rfl

/-- The host's state once the block has answered the next command of the script. -/
def answeredState (c : Command) (rest : List HostEvent) (s : State) : State :=
  respond (commandResponse c) { presentCommand c rest s with buffer := commandEffect s.buffer c }

@[simp] theorem answeredState_ports (c : Command) (rest : List HostEvent) (s : State) :
    (answeredState c rest s).ports = c := rfl
@[simp] theorem answeredState_buffer (c : Command) (rest : List HostEvent) (s : State) :
    (answeredState c rest s).buffer = commandEffect s.buffer c := rfl
@[simp] theorem answeredState_response (c : Command) (rest : List HostEvent) (s : State) :
    (answeredState c rest s).response = some (commandResponse c) := rfl
@[simp] theorem answeredState_script (c : Command) (rest : List HostEvent) (s : State) :
    (answeredState c rest s).script = rest := rfl
@[simp] theorem answeredState_policy (c : Command) (rest : List HostEvent) (s : State) :
    (answeredState c rest s).policy = s.policy := rfl
@[simp] theorem answeredState_faulted (c : Command) (rest : List HostEvent) (s : State) :
    (answeredState c rest s).faulted = s.faulted := rfl

theorem runPorts_presentCommand (c : Command) (rest : List HostEvent) (s : State) :
    runPorts (presentCommand c rest s) = .next (answeredState c rest s) := exec_command (presentCommand c rest s)

theorem issueCommand_eq (c : Command) (rest : List HostEvent) (s : State) :
    issueCommand c rest s = .next (receive (answeredState c rest s)) := by
  rw [issueCommand, runPorts_presentCommand, mapNext_next]

theorem issueRacingCommand_eq (c : Command) (other : Memory) (rest : List HostEvent) (s : State) :
    issueRacingCommand c other rest s = .next (receive (landRacing other (answeredState c rest s))) := by
  rw [issueRacingCommand, runPorts_presentCommand, mapNext_next, mapNext_next]

/-- Rule R22: the sizes are the four widths. -/
theorem legal_commandResponse (c : Command) : (commandResponse c).legal = true := by
  have hwidth : ∀ w : Width, (Response.ok w.bytes).legal = true := by intro w; cases w <;> rfl
  rw [commandResponse]
  split
  · split
    · exact hwidth _
    · rfl
  · simpa only [Response.legal, bytes_length] using hwidth c.instr.width

/-- What the host receives meets the invariant if the parts it has not looked at do: receiving marks the error. -/
theorem inv_receive {u : State} (hwf : Memory.wf u.buffer = true)
    (hwithin : Memory.within Config.hardware u.buffer = true) (hports : u.ports.wf Config.hardware = true)
    (hscript : ∀ e ∈ u.script, e.wf Config.hardware = true) (hlegal : ∀ r, u.response = some r → r.legal = true) :
    (receive u).Inv where
  bufferWf := hwf
  bufferWithin := hwithin
  portsWf := hports
  scriptWf := hscript
  responseLegal := hlegal
  errFaults h := by simpa using .inr h

/-- A step that answers no command keeps the invariant if the buffer and the script it leaves are good. -/
theorem inv_of_no_response {s t : State} (hs : s.Inv) (hwf : Memory.wf t.buffer = true)
    (hwithin : Memory.within Config.hardware t.buffer = true) (hports : t.ports = s.ports)
    (hscript : ∀ e ∈ t.script, e.wf Config.hardware = true) (hresponse : t.response = none) : t.Inv where
  bufferWf := hwf
  bufferWithin := hwithin
  portsWf := hports ▸ hs.portsWf
  scriptWf := hscript
  responseLegal r hr := by simp [hresponse] at hr
  errFaults h := by simp [hresponse, isErr] at h

/-- A host that takes a step has not stopped. -/
theorem running_of_step {s t : State} (h : step s = .next t) : hasStopped s = false := by
  by_contra hstopped
  rw [step_of_stopped s (by simpa using hstopped)] at h
  nomatch h

/-- The invariant speaks of the next event and of those after it. -/
theorem script_wf_cons {s : State} {e : HostEvent} {rest : List HostEvent} (hs : s.Inv)
    (hscript : s.script = e :: rest) :
    e.wf Config.hardware = true ∧ ∀ e' ∈ rest, e'.wf Config.hardware = true := by
  have hevents := hs.scriptWf
  rw [hscript] at hevents
  exact List.forall_mem_cons.mp hevents

/-- Rule R28: a command the ports can carry leaves a good buffer, and its response is legal. -/
theorem inv_receive_answered {s : State} {c : Command} {rest : List HostEvent} (hs : s.Inv)
    (hc : c.wf Config.hardware = true) (hrest : ∀ e ∈ rest, e.wf Config.hardware = true) :
    (receive (answeredState c rest s)).Inv :=
  inv_receive (wf_commandEffect _ c hs.bufferWf) (within_commandEffect _ _ c hc hs.bufferWithin) hc hrest <| by
    rintro _ ⟨⟩
    exact legal_commandResponse c

/-- Another writer's bytes that land with it are at positions the ports can name, so the buffer stays good. -/
theorem inv_receive_landRacing {s : State} {c : Command} {other : Memory} {rest : List HostEvent} (hs : s.Inv)
    (hc : c.wf Config.hardware = true) (hother : Memory.within Config.hardware other = true)
    (hrest : ∀ e ∈ rest, e.wf Config.hardware = true) :
    (receive (landRacing other (answeredState c rest s))).Inv :=
  have hanswered := inv_receive_answered hs hc hrest
  inv_receive (Memory.wf_overlayRacing _ _ _ _ _ hanswered.bufferWf)
    (Memory.within_overlayRacing _ _ _ _ _ _ hanswered.bufferWithin hother) hc hrest hanswered.responseLegal

/-- Settles O52, by the kind of event: a well-formed event carries operands and contents as good as the state's own. -/
theorem everyStepKeepsTheInvariant : Obligations.EveryStepKeepsTheInvariant := by
  intro s t hs hstep
  rcases step_cases s (running_of_step hstep) with ⟨_, he⟩ | ⟨c, rest, hscript, he⟩ |
      ⟨c, other, rest, hscript, he⟩ | ⟨m, rest, hscript, he⟩ | ⟨rest, hscript, he⟩
  · obtain rfl := Host.Outcome.next.inj (hstep.symm.trans he)
    exact inv_of_no_response hs hs.bufferWf hs.bufferWithin rfl hs.scriptWf rfl
  · obtain ⟨hc, hrest⟩ := script_wf_cons hs hscript
    obtain rfl := Host.Outcome.next.inj (hstep.symm.trans (he.trans (issueCommand_eq c rest s)))
    exact inv_receive_answered hs hc hrest
  · obtain ⟨hevent, hrest⟩ := script_wf_cons hs hscript
    simp only [HostEvent.wf, Bool.and_eq_true] at hevent
    obtain ⟨⟨hc, _⟩, hother⟩ := hevent
    obtain rfl := Host.Outcome.next.inj (hstep.symm.trans (he.trans (issueRacingCommand_eq c other rest s)))
    exact inv_receive_landRacing hs hc hother hrest
  · obtain ⟨hevent, hrest⟩ := script_wf_cons hs hscript
    simp only [HostEvent.wf, Bool.and_eq_true] at hevent
    obtain ⟨hm, hmwithin⟩ := hevent
    obtain rfl := Host.Outcome.next.inj (hstep.symm.trans he)
    exact inv_of_no_response hs hm hmwithin rfl hrest rfl
  · obtain ⟨_, hrest⟩ := script_wf_cons hs hscript
    obtain rfl := Host.Outcome.next.inj (hstep.symm.trans he)
    exact inv_of_no_response hs hs.bufferWf hs.bufferWithin rfl hrest rfl

end Sys2Proof.Machine
end

section
/-! PROOFS. Commands one after another: in issue order, and in either order where their ranges share no position (rules
R48, R49, R108). -/

namespace Sys2Proof.Machine

/-- A host goes on while its policy is to carry on or no command has failed. -/
theorem hasStopped_eq_false {s : State} (h : s.policy = .carryOn ∨ s.faulted = false) : hasStopped s = false := by
  rcases h with h | h <;> simp [hasStopped, h]

/-- `step_issue` with the outcome of the command filled in. -/
theorem step_issue_eq {s : State} {c : Command} {rest : List HostEvent} (hrun : hasStopped s = false)
    (hs : s.script = .issue c :: rest) : step s = .next (receive (answeredState c rest s)) :=
  step_issue hrun hs (runPorts_presentCommand c rest s)

theorem isErr_commandResponse {c : Command} (h : c.instr.isInto = true → fitsBuffer c) :
    isErr (some (commandResponse c)) = false := by
  cases hi : c.instr.isInto with
  | false => rw [commandResponse_of_encnew hi, isErr]
  | true => rw [commandResponse_of_fits hi (h hi), isErr]

/-- Rule R48, with more of the script to come. -/
theorem runSteps_issues (cs : List Command) (rest : List HostEvent) (s : State)
    (hs : s.script = cs.map .issue ++ rest)
    (hgo : s.policy = .carryOn ∨ (s.faulted = false ∧ ∀ c ∈ cs, c.instr.isInto = true → fitsBuffer c)) :
    ∃ t : State, runSteps cs.length s = .next t ∧ t.buffer = cs.foldl commandEffect s.buffer ∧ t.script = rest := by
  induction cs generalizing s with
  | nil => exact ⟨s, rfl, rfl, hs⟩
  | cons c cs ih =>
    have hstep := step_issue_eq (hasStopped_eq_false (hgo.imp_right And.left)) hs
    have hnext := ih (receive (answeredState c (cs.map .issue ++ rest) s)) rfl <| hgo.imp id fun ⟨hfaulted, hfits⟩ => by
      obtain ⟨hc, hcs⟩ := List.forall_mem_cons.mp hfits
      exact ⟨by simp [hfaulted, isErr_commandResponse hc], hcs⟩
    rwa [List.length_cons, runSteps_succ_of_next _ _ _ hstep]

/-- Settles O43: `runSteps_issues` with nothing after the commands. -/
theorem commandsTakeEffectInIssueOrder : Obligations.CommandsTakeEffectInIssueOrder :=
  fun s cs hs hgo => runSteps_issues cs [] s (by rw [hs, List.append_nil]) hgo

/-- Two fitting commands of an unfaulted run. -/
theorem runSteps_two_issues {s : State} {c d : Command} {rest : List HostEvent} (hfaulted : s.faulted = false)
    (hs : s.script = .issue c :: .issue d :: rest) (hc : fitsBuffer c) (hd : fitsBuffer d) :
    ∃ t : State, runSteps 2 s = .next t ∧ t.buffer = commandEffect (commandEffect s.buffer c) d := by
  have hfits : ∀ e ∈ [c, d], e.instr.isInto = true → fitsBuffer e := by simp [hc, hd]
  obtain ⟨t, hrun, hbuffer, _⟩ := runSteps_issues [c, d] rest s hs (.inr ⟨hfaulted, hfits⟩)
  exact ⟨t, hrun, hbuffer⟩

/-- What a position holds after a command that fits: its lane there, or what it held. -/
theorem read_commandEffect_of_fits (m : Memory) {c : Command} (hi : c.instr.isInto = true) (hfit : fitsBuffer c)
    (a : Nat) : Memory.read (commandEffect m c) a =
      if c.offset ≤ a ∧ a < c.offset + c.instr.width.bytes then
        some (lane (c.value.toNat % 2 ^ c.instr.width.bits) c.instr.width c.instr.order (a - c.offset))
      else Memory.read m a := by
  rw [commandEffect_of_writes m c ⟨hi, hfit⟩, Memory.read_write, bytes_length]
  split
  · exact bytes_getElem? _ _ _ _ (by omega)
  · rfl

/-- Settles O44: the second command's reading, and the first's where the second does not reach. -/
theorem laterWriteStands : Obligations.LaterWriteStands := by
  intro s c d rest a hfaulted hs hci hdi hc hd hlow hhigh
  obtain ⟨t, hrun, hbuffer⟩ := runSteps_two_issues hfaulted hs hc hd
  have hfirst := (read_commandEffect_of_fits s.buffer hci hc a).trans (if_pos ⟨hlow, hhigh⟩)
  exact ⟨t, hrun, by rw [hbuffer, read_commandEffect_of_fits _ hdi hd, hfirst]⟩

/-- The command does not write position `a`. -/
def sparesPosition (c : Command) (a : Nat) : Prop :=
  c.instr.isInto = false ∨ a < c.offset ∨ c.offset + c.instr.width.bytes ≤ a

theorem read_commandEffect_of_spares (m : Memory) {c : Command} {a : Nat} (h : sparesPosition c a) :
    Memory.read (commandEffect m c) a = Memory.read m a := by
  rw [commandEffect]
  split
  · next hwrites =>
    obtain ⟨hi, _⟩ := hwrites
    refine Memory.read_write_outside _ _ _ _ ?_
    rw [bytes_length]
    exact h.resolve_left (by simp [hi])
  · rfl

/-- What a command leaves at a position depends on what stood at that position only. -/
theorem read_commandEffect_congr {m m' : Memory} (c : Command) {a : Nat} (h : Memory.read m a = Memory.read m' a) :
    Memory.read (commandEffect m c) a = Memory.read (commandEffect m' c) a := by
  simp only [commandEffect]
  split
  · simp only [Memory.read_write, h]
  · exact h

/-- Law L-8: at every position one of the two commands leaves what stood there. -/
theorem commandEffect_comm {m : Memory} {c d : Command} (hm : Memory.wf m = true)
    (h : ∀ a, sparesPosition c a ∨ sparesPosition d a) :
    commandEffect (commandEffect m c) d = commandEffect (commandEffect m d) c := by
  refine Memory.eq_of_read_eq _ _ (wf_commandEffect _ _ (wf_commandEffect _ _ hm))
    (wf_commandEffect _ _ (wf_commandEffect _ _ hm)) fun a => ?_
  rcases h a with hc | hd
  · rw [read_commandEffect_of_spares _ hc]
    exact read_commandEffect_congr d (read_commandEffect_of_spares m hc)
  · rw [read_commandEffect_of_spares _ hd]
    exact (read_commandEffect_congr c (read_commandEffect_of_spares m hd)).symm

/-- Ranges that share no position, said of each position. -/
theorem spares_of_disjoint {c d : Command}
    (h : c.offset + c.instr.width.bytes ≤ d.offset ∨ d.offset + d.instr.width.bytes ≤ c.offset) (a : Nat) :
    sparesPosition c a ∨ sparesPosition d a := by
  have hout : (a < c.offset ∨ c.offset + c.instr.width.bytes ≤ a) ∨
      (a < d.offset ∨ d.offset + d.instr.width.bytes ≤ a) := by omega
  exact hout.imp .inr .inr

/-- Settles O45: each order leaves the two effects in that order, and these commute. -/
theorem disjointCommandsCommute : Obligations.DisjointCommandsCommute := by
  intro s c d hm hfaulted _ _ hc hd hdisjoint
  obtain ⟨t, ht, htbuffer⟩ := runSteps_two_issues (s := { s with script := [.issue c, .issue d] }) hfaulted rfl hc hd
  obtain ⟨u, hu, hubuffer⟩ := runSteps_two_issues (s := { s with script := [.issue d, .issue c] }) hfaulted rfl hd hc
  exact ⟨t, u, ht, hu, htbuffer.trans ((commandEffect_comm hm (spares_of_disjoint hdisjoint)).trans hubuffer.symm)⟩

/-- A command that writes nothing shares no position with any other (rule R45). -/
theorem spares_of_new_or_disjoint {c d : Command} (h : c.instr.isInto = false ∨ d.instr.isInto = false ∨
    c.offset + c.instr.width.bytes ≤ d.offset ∨ d.offset + d.instr.width.bytes ≤ c.offset) (a : Nat) :
    sparesPosition c a ∨ sparesPosition d a := by
  rcases h with hc | hd | hranges
  · exact .inl (.inl hc)
  · exact .inr (.inl hd)
  · exact spares_of_disjoint hranges a

/-- Settles O59: the responses depend on the commands alone, and two instances are set independently; so are two
buffers, and in one buffer the effects commute. -/
theorem instancesNeedNoOrder : Obligations.InstancesNeedNoOrder := by
  intro p j k a b c d m n hjk hj hk ha hb hm _ hdisjoint
  obtain ⟨r, hr⟩ := issueOn_spec c
  obtain ⟨q, hq⟩ := issueOn_spec d
  have hk' : ∀ m' : Memory, k < (p.update j a c (some r) m').blocks.length := by simpa using hk
  have hj' : ∀ n' : Memory, j < (p.update k b d (some q) n').blocks.length := by simpa using hj
  by_cases hab : a = b
  · subst hab
    obtain rfl := Option.some.inj (ha.symm.trans hb)
    have hlt := (List.getElem?_eq_some_iff.mp ha).1
    have hcomm := commandEffect_comm hm (spares_of_new_or_disjoint (hdisjoint.resolve_left fun hne => hne rfl))
    refine ⟨_, _, _, hr j a p m hj ha, hq k a p m hk hb,
      hq k a _ (commandEffect m c) (hk' _) (by simp [hlt]), ?_⟩
    rw [hr j a _ (commandEffect m d) (hj' _) (by simp [hlt])]
    simp only [Platform.update, List.set_set, hcomm, List.set_comm _ _ hjk]
  · refine ⟨_, _, _, hr j a p m hj ha, hq k b p n hk hb, hq k b _ n (hk' _) (by simpa [hab] using hb), ?_⟩
    rw [hr j a _ m (hj' _) (by simpa [Ne.symm hab] using ha)]
    simp only [Platform.update, List.set_comm _ _ hjk, List.set_comm _ _ hab]

end Sys2Proof.Machine
end

section
/-! PROOFS. A command and another writer that nobody orders (rule R49, U2). -/

namespace Sys2Proof.Machine

/-- `issueRacingCommand_eq` as a step of a running host. -/
theorem step_issueRacing_eq {s : State} {c : Command} {other : Memory} {rest : List HostEvent}
    (hrun : hasStopped s = false) (hs : s.script = .issueRacing c other :: rest) :
    step s = .next (receive (landRacing other (answeredState c rest s))) := by
  rw [step_of_running s hrun, runNextEvent, hs]
  exact issueRacingCommand_eq c other rest s

/-- Each position after a race: the command's byte where it wrote and wins, else the other writer's where it writes. -/
theorem Memory.read_overlayRacing (wins : Nat → Bool) (off n : Nat) (m : Memory) {other : Memory}
    (hother : Memory.wf other = true) (q : Nat) :
    Memory.read (Memory.overlayRacing wins off n m other) q =
      if off ≤ q ∧ q < off + n ∧ wins q = true then Memory.read m q
      else (Memory.read other q).or (Memory.read m q) := by
  induction other generalizing m with
  | nil => simp [Memory.overlayRacing]
  | cons cell rest ih =>
    obtain ⟨p, v⟩ := cell
    obtain ⟨hrest, habove⟩ := (Memory.wf_cons p v rest).mp hother
    by_cases hpq : p = q
    · subst hpq
      have hread : Memory.read ((p, v) :: rest) p = some v := if_pos rfl
      have hunlisted : ∀ cell ∈ rest, cell.1 ≠ p := fun cell hcell => (habove cell hcell).ne'
      rw [Memory.overlayRacing, hread]
      split <;> rw [Memory.read_overlayRacing_unlisted _ _ _ _ _ _ hunlisted]
      rw [Memory.read_writeByte, if_pos rfl, Option.some_or]
    · have hread : Memory.read ((p, v) :: rest) q = Memory.read rest q := if_neg hpq
      rw [Memory.overlayRacing, hread]
      split
      · exact ih m hrest
      · rw [ih _ hrest, Memory.read_writeByte, if_neg (Ne.symm hpq)]

/-- Settles O46: `read_overlayRacing` on top of the command's own write; a free choice that falls to the command leaves
its byte, one that falls to the other writer leaves the other's. -/
theorem racingWritersLeaveEitherByte : Obligations.RacingWritersLeaveEitherByte := by
  intro s c other rest hrun hs hi hfit hother
  have hresponse := commandResponse_of_fits hi hfit
  refine ⟨_, step_issueRacing_eq hrun hs, congrArg some hresponse, fun a mine hmine => ?_⟩
  have hwritten := read_commandEffect_of_fits s.buffer hi hfit a
  rw [receive_buffer, landRacing_buffer, Memory.read_overlayRacing _ _ _ _ hother]
  simp only [answeredState_ports, answeredState_response, answeredState_buffer, hresponse, countWritten]
  by_cases hin : c.offset ≤ a ∧ a < c.offset + c.instr.width.bytes
  · obtain ⟨hlow, hhigh⟩ := hin
    rw [if_pos ⟨hlow, hhigh⟩] at hwritten
    rw [if_pos ⟨hlow, hhigh⟩, bytes_getElem? _ _ _ _ (by omega), ← hwritten] at hmine
    subst hmine
    refine ⟨fun ⟨_, hno⟩ => ?_, fun ⟨ho, _⟩ => ?_, fun ⟨_, hno⟩ => ?_, fun ⟨ho, _⟩ => ?_⟩
    · simp [hwritten] at hno
    · simp [ho]
    · simp [hwritten] at hno
    · split
      · exact .inl rfl
      · exact .inr (Option.or_of_isSome (Option.isSome_iff_ne_none.mpr ho))
  · rw [if_neg hin] at hmine hwritten
    subst hmine
    rw [if_neg fun h => hin ⟨h.1, h.2.1⟩, hwritten]
    refine ⟨fun ⟨ho, _⟩ => ?_, fun ⟨_, hno⟩ => absurd rfl hno, fun ⟨ho, _⟩ => ?_, fun ⟨_, hno⟩ => absurd rfl hno⟩
    · rw [ho, Option.none_or]
    · exact Option.or_of_isSome (Option.isSome_iff_ne_none.mpr ho)

/-- Bytes that land outside the range that races simply land. -/
theorem Memory.overlayRacing_eq_overlay (wins : Nat → Bool) (off n : Nat) (m : Memory) {other : Memory}
    (h : ∀ cell ∈ other, cell.1 < off ∨ off + n ≤ cell.1) :
    Memory.overlayRacing wins off n m other = Memory.overlay m other := by
  induction other generalizing m with
  | nil => rfl
  | cons cell rest ih =>
    obtain ⟨p, v⟩ := cell
    obtain ⟨hp, hrest⟩ := List.forall_mem_cons.mp h
    rw [Memory.overlayRacing, Memory.overlay, if_neg (by simp only at hp; omega), ih _ hrest]

/-- No command reports more bytes than its width. -/
theorem countWritten_commandResponse_le (c : Command) :
    countWritten (some (commandResponse c)) ≤ c.instr.width.bytes := by
  rw [commandResponse]
  split
  · split
    · exact Nat.le_refl _
    · exact Nat.zero_le _
  · exact Nat.zero_le _

/-- A byte at a position the command does not write may land before it or after it. -/
theorem commandEffect_writeByte {m : Memory} {c : Command} {p : Nat} (v : Byte) (hm : Memory.wf m = true)
    (h : sparesPosition c p) :
    commandEffect (Memory.writeByte m p v) c = Memory.writeByte (commandEffect m c) p v := by
  refine Memory.eq_of_read_eq _ _ (wf_commandEffect _ _ (Memory.wf_writeByte _ _ _ hm))
    (Memory.wf_writeByte _ _ _ (wf_commandEffect _ _ hm)) fun q => ?_
  rw [Memory.read_writeByte]
  by_cases hq : q = p
  · subst hq
    rw [if_pos rfl, read_commandEffect_of_spares _ h, Memory.read_writeByte, if_pos rfl]
  · rw [if_neg hq]
    exact read_commandEffect_congr c ((Memory.read_writeByte _ _ _ _).trans (if_neg hq))

theorem commandEffect_overlay {m other : Memory} {c : Command} (hm : Memory.wf m = true)
    (h : ∀ cell ∈ other, sparesPosition c cell.1) :
    commandEffect (Memory.overlay m other) c = Memory.overlay (commandEffect m c) other := by
  induction other generalizing m with
  | nil => rfl
  | cons cell rest ih =>
    obtain ⟨p, v⟩ := cell
    obtain ⟨hp, hrest⟩ := List.forall_mem_cons.mp h
    rw [Memory.overlay, Memory.overlay, ih (Memory.wf_writeByte _ _ _ hm) hrest, commandEffect_writeByte v hm hp]

/-- Settles O47: outside the command's range no position races, and what lands there commutes with the command. -/
theorem disjointWritersNeedNoOrder : Obligations.DisjointWritersNeedNoOrder := by
  intro s c other rest hrun hs hm hdisjoint
  have hcount := countWritten_commandResponse_le c
  have hlands : ∀ wins : Nat → Bool, Memory.overlayRacing wins c.offset (countWritten (some (commandResponse c)))
      (commandEffect s.buffer c) other = Memory.overlay (commandEffect s.buffer c) other := fun wins =>
    Memory.overlayRacing_eq_overlay wins _ _ _ fun cell hcell => (hdisjoint cell hcell).imp_right (by omega)
  have hcommutes := commandEffect_overlay (c := c) hm fun cell hcell => .inr (hdisjoint cell hcell)
  exact ⟨_, _, _, step_issueRacing_eq hrun hs,
    step_issue_eq (s := { s with script := .issue c :: rest }) hrun rfl,
    step_issue_eq (s := { s with script := .issue c :: rest, buffer := Memory.overlay s.buffer other }) hrun rfl,
    hlands _, (hlands _).trans hcommutes.symm, rfl⟩

end Sys2Proof.Machine
end

section
/-! PROOFS. The decoder and the encoder: what the fields of a command word select, and that every word is a command
(rules R54 to R58, R62). -/

namespace Sys2Proof.Machine

@[simp] theorem isInto_instrOfFields (into : Bool) (o : Order) (w : Width) :
    (instrOfFields into o w).isInto = into := by
  cases into <;> cases o <;> cases w <;> rfl

@[simp] theorem order_instrOfFields (into : Bool) (o : Order) (w : Width) :
    (instrOfFields into o w).order = o := by
  cases into <;> cases o <;> cases w <;> rfl

@[simp] theorem width_instrOfFields (into : Bool) (o : Order) (w : Width) :
    (instrOfFields into o w).width = w := by
  cases into <;> cases o <;> cases w <;> rfl

/-- The form, the order and the width determine the instruction. -/
theorem instrOfFields_of_instr (i : Instr) : instrOfFields i.isInto i.order i.width = i := by
  cases i <;> rfl

/-- The rows of rule R58, one lemma of Laws/PerInstr.lean each. -/
theorem encodingFields : ∀ i : Instr, Laws.EncodingFields.Statement i
  | .encnew8Le => Laws.EncodingFields.encnew8Le
  | .encnew16Le => Laws.EncodingFields.encnew16Le
  | .encnew32Le => Laws.EncodingFields.encnew32Le
  | .encnew64Le => Laws.EncodingFields.encnew64Le
  | .encnew8Be => Laws.EncodingFields.encnew8Be
  | .encnew16Be => Laws.EncodingFields.encnew16Be
  | .encnew32Be => Laws.EncodingFields.encnew32Be
  | .encnew64Be => Laws.EncodingFields.encnew64Be
  | .encinto8Le => Laws.EncodingFields.encinto8Le
  | .encinto16Le => Laws.EncodingFields.encinto16Le
  | .encinto32Le => Laws.EncodingFields.encinto32Le
  | .encinto64Le => Laws.EncodingFields.encinto64Le
  | .encinto8Be => Laws.EncodingFields.encinto8Be
  | .encinto16Be => Laws.EncodingFields.encinto16Be
  | .encinto32Be => Laws.EncodingFields.encinto32Be
  | .encinto64Be => Laws.EncodingFields.encinto64Be

/-- Every instruction is what its word decodes to: the three fields of the word are its own. -/
theorem decodeCmd_encode (i : Instr) : decodeCmd (encode i) = i := by
  obtain ⟨hinto, hbe, hwsel, _⟩ := encodingFields i
  rw [decodeCmd, hinto, hbe, hwsel, instrOfFields_of_instr]

/-- No two words decode alike: each of the sixteen is the word of what it decodes to. -/
theorem encode_decodeCmd : ∀ c : BitVec 4, encode (decodeCmd c) = c := by decide

theorem mnemonic_decodeCmd_encode (i : Instr) : (decodeCmd (encode i)).mnemonic = i.mnemonic :=
  congrArg Instr.mnemonic (decodeCmd_encode i)

/-- Settles O1: each word is the encoding of the instruction of its row. -/
theorem wordsDecodeToTheirCommands : Obligations.WordsDecodeToTheirCommands :=
  ⟨mnemonic_decodeCmd_encode .encnew8Le, mnemonic_decodeCmd_encode .encnew16Le,
    mnemonic_decodeCmd_encode .encnew32Le, mnemonic_decodeCmd_encode .encnew64Le,
    mnemonic_decodeCmd_encode .encnew8Be, mnemonic_decodeCmd_encode .encnew16Be,
    mnemonic_decodeCmd_encode .encnew32Be, mnemonic_decodeCmd_encode .encnew64Be,
    mnemonic_decodeCmd_encode .encinto8Le, mnemonic_decodeCmd_encode .encinto16Le,
    mnemonic_decodeCmd_encode .encinto32Le, mnemonic_decodeCmd_encode .encinto64Le,
    mnemonic_decodeCmd_encode .encinto8Be, mnemonic_decodeCmd_encode .encinto16Be,
    mnemonic_decodeCmd_encode .encinto32Be, mnemonic_decodeCmd_encode .encinto64Be⟩

/-- Settles O2. -/
theorem decodeAndEncodeAgree : Obligations.DecodeAndEncodeAgree := ⟨decodeCmd_encode, encode_decodeCmd⟩

/-- Rule R55 of the field alone, checked on the sixteen words. -/
theorem bytes_fieldWsel : ∀ c : BitVec 4, (fieldWsel c).bytes = 2 ^ (c.extractLsb' 0 2).toNat := by decide

/-- Settles O3: the width of the decoded instruction is the one its field WSEL selects. -/
theorem wselSelectsTheWidth : Obligations.WselSelectsTheWidth := by
  intro c
  have hbytes : (decodeCmd c).width.bytes = 2 ^ (c.extractLsb' 0 2).toNat := by
    rw [decodeCmd, width_instrOfFields, bytes_fieldWsel]
  exact ⟨hbytes, by rw [Width.bits, hbytes]⟩

theorem fieldBe_of_set {c : BitVec 4} (h : c.getLsbD 2 = true) : fieldBe c = .big := if_pos h

theorem fieldBe_of_clear {c : BitVec 4} (h : c.getLsbD 2 = false) : fieldBe c = .little :=
  if_neg (Bool.eq_false_iff.mp h)

/-- Settles O4: the decoded order and form are the fields BE and INTO, and INTO is the bit itself. -/
theorem orderAndFormBitsSelect : Obligations.OrderAndFormBitsSelect := by
  intro c
  rw [decodeCmd, order_instrOfFields, isInto_instrOfFields]
  cases hbit : c.getLsbD 2 with
  | true => simp [fieldBe_of_set hbit, fieldInto]
  | false => simp [fieldBe_of_clear hbit, fieldInto]

theorem decodeWord_of_lt {w : Nat} (h : w < 16) : decodeWord w = .ok (decodeCmd (BitVec.ofNat 4 w)) := if_pos h

theorem wf_instr (i : Instr) : i.wf = true := by
  obtain ⟨_, _, _, hwf⟩ := encodingFields i
  exact hwf

/-- An instruction's outcome depends on its form, its width and the byte sequence of its value; the order bit acts
through that sequence only. -/
theorem exec_congr {i j : Instr} {s : State} (hform : i.isInto = j.isInto) (hwidth : i.width = j.width)
    (hbytes : bytes (valueOperand j.width s) j.width i.order = bytes (valueOperand j.width s) j.width j.order) :
    exec i s = exec j s := by
  rw [exec_eq i, exec_eq j, hform, hwidth, encInto, encInto, encNew, encNew, hbytes]

/-- Rule R62: two one-byte commands of one form have the same outcome, since one byte has no order (rule R37). -/
theorem exec_w8_congr {i j : Instr} (s : State) (hform : i.isInto = j.isInto) (hi : i.width = .w8)
    (hj : j.width = .w8) : exec i s = exec j s :=
  exec_congr hform (hi.trans hj.symm) (by rw [hj, bytes_w8, bytes_w8])

/-- Settles O5: the decoded instruction encodes back to the word, and the one-byte pairs differ in the order only. -/
theorem everyCommandWordIsLegal : Obligations.EveryCommandWordIsLegal :=
  ⟨fun _ hw => ⟨_, decodeWord_of_lt hw, wf_instr _, encode_decodeCmd _⟩,
    fun s => exec_w8_congr s rfl rfl rfl, fun s => exec_w8_congr s rfl rfl rfl⟩

/-- Settles O26, by the three things an instruction can do: OFFSET and LEN choose which one, and its bytes are those of
the value operand, which the upper bits do not enter. -/
theorem upperValueBitsAreIgnored : Obligations.UpperValueBitsAreIgnored := by
  intro i s v hlow
  have hvalue : valueOperand i.width { s with ports := { s.ports with value := v } } = valueOperand i.width s := hlow
  rcases exec_cases i s with ⟨hi, he⟩ | ⟨hi, hfit, he⟩ | ⟨hi, hover, he⟩
  · refine ⟨_, he, ?_⟩
    rw [exec_of_encnew _ hi, hvalue]
    rfl
  · refine ⟨_, he, ?_⟩
    rw [exec_of_encinto_fits hi, hvalue]
    · rfl
    · exact hfit
  · exact ⟨_, he, exec_of_encinto_overflows hi hover⟩

end Sys2Proof.Machine
end

section
/-! PROOFS. The bounds check as an implementation builds it (rules R61, R79, R80). -/

namespace Sys2Proof.Machine

/-- Rule R79: one bit more than the ports have is enough for the sum, whose largest value is `2 ^ n + 7`. -/
theorem toNat_boundsSum {n : Nat} (hn : 4 ≤ n) (off : BitVec n) (w : Width) :
    (boundsSum off w).toNat = off.toNat + w.bytes := by
  have hport : 2 ^ 4 ≤ 2 ^ n := Nat.pow_le_pow_right (by decide) hn
  have hdouble : 2 ^ (n + 1) = 2 * 2 ^ n := by ring
  have hoff := off.isLt
  have hwidth := width_bytes_le w
  rw [boundsSum, BitVec.toNat_add, BitVec.toNat_ofNat, BitVec.toNat_setWidth_of_le (Nat.le_succ n),
    Nat.mod_eq_of_lt (a := w.bytes) (by omega), Nat.mod_eq_of_lt (by omega)]

/-- Settles O29: the sum is exact and LEN keeps its value when extended, so the comparison is that of the numbers. -/
theorem boundsCheckMeetsThePredicate : Obligations.BoundsCheckMeetsThePredicate := by
  intro n strict off len w hn
  have hsum := toNat_boundsSum hn off w
  have hlen : (len.setWidth (n + 1)).toNat = len.toNat := BitVec.toNat_setWidth_of_le (Nat.le_succ n)
  cases strict with
  | true => simp [boundsCheck, overflow, BitVec.ule, hsum, hlen]
  | false => simp [boundsCheck, overflow, BitVec.ult, hsum, hlen]

end Sys2Proof.Machine
end

section
/-! PROOFS. The assembler, line by line: the ports it drives, the literals it rejects, and the defaults (rules R64,
R65). -/

namespace Sys2Proof.Machine

/-- The command the assembler puts on the ports for a form, an order, a width and literals. -/
def assembledCommand (into : Bool) (o : Order) (w : Width) (v off len : Nat) : Command :=
  ⟨encode (instrOfFields into o w), BitVec.ofNat 64 v, off, len⟩

/-- The block decodes what the assembler named. -/
theorem instr_assembledCommand (into : Bool) (o : Order) (w : Width) (v off len : Nat) :
    (assembledCommand into o w v off len).instr = instrOfFields into o w := decodeCmd_encode _

/-- VALUE carries every literal that fits its width: no width is wider than the port. -/
theorem value_assembledCommand {w : Width} {v : Nat} (into : Bool) (o : Order) (off len : Nat) (hv : v < 2 ^ w.bits) :
    (assembledCommand into o w v off len).value.toNat = v := by
  have hport : 2 ^ w.bits ≤ 2 ^ 64 := Nat.pow_le_pow_right (by decide) (Nat.mul_le_mul_left 8 (width_bytes_le w))
  exact Nat.mod_eq_of_lt (hv.trans_le hport)

theorem valueFits_iff (w : Width) (v : Nat) : valueFits w v = true ↔ v < 2 ^ w.bits := decide_eq_true_iff

theorem assembleLine_encnew {w : Width} {v : Nat} (cfg : Config) (len : Nat) (o : Option Order) (hv : v < 2 ^ w.bits) :
    assembleLine cfg len (.encnew w o v) = .ok (len, some (assembledCommand false (defaultOrder o) w v 0 0)) :=
  if_pos ((valueFits_iff w v).mpr hv)

theorem assembleLine_encnew_valueTooLarge {w : Width} {v : Nat} (cfg : Config) (len : Nat) (o : Option Order)
    (hv : 2 ^ w.bits ≤ v) : assembleLine cfg len (.encnew w o v) = .error .valueTooLarge :=
  if_neg (mt (valueFits_iff w v).mp (Nat.not_lt.mpr hv))

theorem assembleLine_encinto {cfg : Config} {w : Width} {v : Nat} {off : Option Nat} (len : Nat) (o : Option Order)
    (hv : v < 2 ^ w.bits) (hoff : defaultOffset off < 2 ^ cfg.addrBits) :
    assembleLine cfg len (.encinto w o v off) =
      .ok (len, some (assembledCommand true (defaultOrder o) w v (defaultOffset off) len)) :=
  (if_pos ((valueFits_iff w v).mpr hv)).trans (if_pos hoff)

theorem assembleLine_encinto_offsetTooLarge {cfg : Config} {w : Width} {v : Nat} {off : Option Nat} (len : Nat)
    (o : Option Order) (hv : v < 2 ^ w.bits) (hoff : 2 ^ cfg.addrBits ≤ defaultOffset off) :
    assembleLine cfg len (.encinto w o v off) = .error .offsetTooLarge :=
  (if_pos ((valueFits_iff w v).mpr hv)).trans (if_neg (Nat.not_lt.mpr hoff))

theorem assembleLine_encinto_valueTooLarge {w : Width} {v : Nat} (cfg : Config) (len : Nat) (o : Option Order)
    (off : Option Nat) (hv : 2 ^ w.bits ≤ v) : assembleLine cfg len (.encinto w o v off) = .error .valueTooLarge :=
  if_neg (mt (valueFits_iff w v).mp (Nat.not_lt.mpr hv))

theorem assembleLine_buf {cfg : Config} {len : Nat} (old : Nat) (hlen : len < 2 ^ cfg.addrBits) :
    assembleLine cfg old (.buf len) = .ok (len, none) := if_pos hlen

/-- Settles O55: the equation of `assembleLine` for each form; the command it gives decodes to the form named. -/
theorem assemblerDrivesThePorts : Obligations.AssemblerDrivesThePorts := by
  intro cfg len w o v off
  have hfields (into : Bool) (off' len' : Nat) :
      (assembledCommand into o w v off' len').instr.isInto = into ∧
        (assembledCommand into o w v off' len').instr.width = w ∧
        (assembledCommand into o w v off' len').instr.order = o := by
    simp [instr_assembledCommand]
  refine ⟨fun hv => ⟨?_, fun hoff => ?_, fun hoff => assembleLine_encinto_offsetTooLarge len (some o) hv hoff⟩,
    fun hv => ⟨assembleLine_encnew_valueTooLarge cfg len (some o) hv,
      assembleLine_encinto_valueTooLarge cfg len (some o) (some off) hv⟩,
    fun hlen old => assembleLine_buf old hlen⟩
  · obtain ⟨hinto, hwidth, horder⟩ := hfields false 0 0
    exact ⟨_, assembleLine_encnew cfg len (some o) hv, hinto, hwidth, horder,
      value_assembledCommand _ _ _ _ hv, rfl, rfl⟩
  · obtain ⟨hinto, hwidth, horder⟩ := hfields true off len
    exact ⟨_, assembleLine_encinto len (some o) hv hoff, hinto, hwidth, horder,
      value_assembledCommand _ _ _ _ hv, rfl, rfl⟩

/-- An ENCNEW line means what its order means once the default is taken (rule R65). -/
theorem assembleLine_encnew_congr (cfg : Config) (len : Nat) (w : Width) (v : Nat) {o o' : Option Order}
    (ho : defaultOrder o = defaultOrder o') :
    assembleLine cfg len (.encnew w o v) = assembleLine cfg len (.encnew w o' v) := by
  rw [assembleLine, assembleLine, ho]

/-- An ENCINTO line means what its order and offset mean once the defaults are taken (rule R65). -/
theorem assembleLine_encinto_congr (cfg : Config) (len : Nat) (w : Width) (v : Nat) {o o' : Option Order}
    {off off' : Option Nat} (ho : defaultOrder o = defaultOrder o') (hoff : defaultOffset off = defaultOffset off') :
    assembleLine cfg len (.encinto w o v off) = assembleLine cfg len (.encinto w o' v off') := by
  rw [assembleLine, assembleLine, ho, hoff]

/-- Settles O54: in each pair the written operands are the defaults of the missing ones. -/
theorem pseudoFormsTakeTheDefaults : Obligations.PseudoFormsTakeTheDefaults := fun cfg len w _ v _ =>
  ⟨assembleLine_encnew_congr cfg len w v rfl, assembleLine_encinto_congr cfg len w v rfl rfl,
    assembleLine_encinto_congr cfg len w v rfl rfl, assembleLine_encinto_congr cfg len w v rfl rfl⟩

end Sys2Proof.Machine
end

section
/-! PROOFS. The ENCNEW family: the byte slices each command returns, and the ENCINTO that leaves the same bytes (rules R69
to R77, R80). -/

namespace Sys2Proof.Machine

/-- The byte slices of the port VALUE that a width has, in the positions an order gives them (rules R33, R34). -/
def valueSlices (v : BitVec 64) (w : Width) (o : Order) : List Byte :=
  (List.range w.bytes).map fun k => v.extractLsb' (sh w o k) 8

/-- The value operand gives the slices of the whole port: the bits it cuts off lie above the last lane (rule R60). -/
theorem bytes_valueOperand (w : Width) (o : Order) (s : State) :
    bytes (valueOperand w s) w o = valueSlices s.ports.value w o :=
  calc bytes (valueOperand w s) w o
      = bytes s.ports.value.toNat w o := bytes_mod _ w o
    _ = valueSlices s.ports.value w o := List.map_congr_left fun k _ => lane_eq_extractLsb' s.ports.value w o k

/-- Rules R23, R67: an ENCNEW command answers the slices of its width and order; OUT shows them on its lanes. -/
theorem answersNew_of_encnew {i : Instr} {bs : List Byte} (s : State) (hi : i.isInto = false)
    (hbs : valueSlices s.ports.value i.width i.order = bs) : AnswersNew (exec i s) s bs := by
  have hexec := exec_of_encnew s hi
  rw [bytes_valueOperand, hbs] at hexec
  exact ⟨hexec, rfl, rfl, fun _ hk => outLane_outPort_new bs hk⟩

/-- Settles O8: the one slice of width 8, at shift 0 in either order. -/
theorem encnew8ReturnsTheByte : Obligations.Encnew8ReturnsTheByte :=
  ⟨decodeCmd_encode .encnew8Le, decodeCmd_encode .encnew8Be,
    fun s => ⟨answersNew_of_encnew s rfl rfl, answersNew_of_encnew s rfl rfl⟩⟩

/-- Settles O9: the list of `valueSlices` written out, at rising shifts (LE) and at falling shifts (BE). -/
theorem encnew16ReturnsTwoBytes : Obligations.Encnew16ReturnsTwoBytes :=
  ⟨decodeCmd_encode .encnew16Le, decodeCmd_encode .encnew16Be,
    fun s => ⟨answersNew_of_encnew s rfl rfl, answersNew_of_encnew s rfl rfl⟩⟩

/-- Settles O10, as O9 at four slices. -/
theorem encnew32ReturnsFourBytes : Obligations.Encnew32ReturnsFourBytes :=
  ⟨decodeCmd_encode .encnew32Le, decodeCmd_encode .encnew32Be,
    fun s => ⟨answersNew_of_encnew s rfl rfl, answersNew_of_encnew s rfl rfl⟩⟩

/-- Settles O11, as O9 at eight slices: here no bit of VALUE is cut off. -/
theorem encnew64ReturnsEightBytes : Obligations.Encnew64ReturnsEightBytes :=
  ⟨decodeCmd_encode .encnew64Le, decodeCmd_encode .encnew64Be,
    fun s => ⟨answersNew_of_encnew s rfl rfl, answersNew_of_encnew s rfl rfl⟩⟩

/-- A write from position 0 over the whole buffer leaves nothing of the old contents. -/
theorem Memory.contents_write_whole (m : Memory) {bs : List Byte} {n : Nat} (hn : bs.length = n) :
    Memory.contents (Memory.write m 0 bs) n = bs.map some := by
  have hnothing : (Memory.contents m n).drop (0 + bs.length) = [] := by simp [hn]
  rw [Memory.contents_write m (by omega), hnothing, List.take_zero, List.nil_append, List.append_nil]

/-- The stricter check of rule R80, said of the numbers: a write that ends exactly at LEN does not pass it. -/
theorem overflow_strict (off w l : Nat) : overflow true off w l = true ↔ l ≤ off + w := by simp [overflow]

/-- Settles O13: both commands have the same bytes, the write covers the buffer, and its end is at LEN, which only the
stricter check rejects. -/
theorem encnewEqualsEncintoIntoExactBuffer : Obligations.EncnewEqualsEncintoIntoExactBuffer := by
  intro i j s hi hj hwidth horder hoff hlen
  have hoperand : offsetOperand s = 0 := hoff
  have hend : lenOperand s = offsetOperand s + j.width.bytes := by rw [hoperand, Nat.zero_add, ← hwidth]; exact hlen
  have hinto := exec_of_encinto_fits hj hend.ge
  rw [← hwidth, ← horder, hoperand] at hinto
  have hstrict := (overflow_strict _ _ _).mpr hend.le
  have hwritten := bytes_length (valueOperand i.width s) i.width i.order
  exact ⟨_, _, _, exec_of_encnew s hi, rfl, hwritten, hinto, rfl, Memory.contents_write_whole s.buffer hwritten,
    if_pos hstrict⟩

end Sys2Proof.Machine
end

section
/-! PROOFS. The ENCINTO family: the byte slices each command writes, or the error it answers, under either boundary policy
(rules R80 to R91). -/

namespace Sys2Proof.Machine

/-- Rules R23, R42, R82: a write at OFFSET that is answered with its own length. -/
theorem answersWritten_respond_memWrite (s : State) (bs : List Byte) :
    AnswersWritten (.next (respond (.ok bs.length) (memWrite (offsetOperand s) bs s))) s bs :=
  ⟨_, rfl, rfl, Memory.read_write_inside s.buffer _ bs, Memory.read_write_outside s.buffer _ bs, rfl, rfl, rfl⟩

/-- Rules R23, R81. -/
theorem answersOverflow_raise (s : State) : AnswersOverflow (.next (raiseBufferOverflow s)) s :=
  ⟨rfl, rfl, rfl, rfl⟩

/-- A passed check, under either policy: the slices of the width and order are written. -/
theorem answersWritten_of_passes {strict : Bool} {w : Width} {o : Order} {s : State} {bs : List Byte}
    (hpasses : overflow strict (offsetOperand s) w.bytes (lenOperand s) = false)
    (hbs : bs = valueSlices s.ports.value w o) : AnswersWritten (encInto strict w o s) s bs := by
  have hbytes : bytes (valueOperand w s) w o = bs := (bytes_valueOperand w o s).trans hbs.symm
  have hlength : w.bytes = bs.length := by rw [← hbytes, bytes_length]
  rcases encInto_cases strict w o s with ⟨ho, _⟩ | ⟨_, he⟩
  · exact absurd (ho.symm.trans hpasses) (by decide)
  · rw [he, hbytes, hlength]
    exact answersWritten_respond_memWrite s bs

/-- A failed check, under either policy. -/
theorem answersOverflow_of_fails {strict : Bool} {w : Width} {s : State} (o : Order)
    (hfails : overflow strict (offsetOperand s) w.bytes (lenOperand s) = true) :
    AnswersOverflow (encInto strict w o s) s := by
  rcases encInto_cases strict w o s with ⟨_, he⟩ | ⟨ho, _⟩
  · exact he ▸ answersOverflow_raise s
  · exact absurd (ho.symm.trans hfails) (by decide)

/-- The check of `STRICT_BOUNDS = 0` passed, said of the numbers (rule R80). -/
theorem overflow_lax_eq_false (off w l : Nat) : overflow false off w l = false ↔ off + w ≤ l := by simp [overflow]

/-- The check of `STRICT_BOUNDS = 1` passed, said of the numbers (rule R80). -/
theorem overflow_strict_eq_false (off w l : Nat) : overflow true off w l = false ↔ off + w < l := by simp [overflow]

/-- The four clauses of the bounds check and the repetition, for both commands of a width: what rules R84 to R91 say of
each pair. -/
theorem encinto_bothOrders (w : Width) (s : State) {le be : List Byte}
    (hle : le = valueSlices s.ports.value w .little) (hbe : be = valueSlices s.ports.value w .big) :
    (offsetOperand s + w.bytes ≤ lenOperand s →
      AnswersWritten (exec (instrOfFields true .little w) s) s le ∧
      AnswersWritten (exec (instrOfFields true .big w) s) s be) ∧
    (lenOperand s < offsetOperand s + w.bytes →
      AnswersOverflow (exec (instrOfFields true .little w) s) s ∧
      AnswersOverflow (exec (instrOfFields true .big w) s) s) ∧
    (offsetOperand s + w.bytes < lenOperand s →
      AnswersWritten (encInto true w .little s) s le ∧ AnswersWritten (encInto true w .big s) s be) ∧
    (lenOperand s ≤ offsetOperand s + w.bytes →
      AnswersOverflow (encInto true w .little s) s ∧ AnswersOverflow (encInto true w .big s) s) ∧
    Repeatable (instrOfFields true .little w) s ∧ Repeatable (instrOfFields true .big w) s := by
  have hexec : ∀ o, exec (instrOfFields true o w) s = encInto false w o s := fun o => by simp [exec_eq]
  rw [hexec, hexec]
  refine ⟨fun hfit => ?_, fun hover => ?_, fun hfit => ?_, fun hover => ?_,
    repeatingACommandChangesNothing _ s, repeatingACommandChangesNothing _ s⟩
  · have hpasses := (overflow_lax_eq_false _ _ _).mpr hfit
    exact ⟨answersWritten_of_passes hpasses hle, answersWritten_of_passes hpasses hbe⟩
  · have hfails := (overflow_hardware _ _ _).mpr hover
    exact ⟨answersOverflow_of_fails .little hfails, answersOverflow_of_fails .big hfails⟩
  · have hpasses := (overflow_strict_eq_false _ _ _).mpr hfit
    exact ⟨answersWritten_of_passes hpasses hle, answersWritten_of_passes hpasses hbe⟩
  · have hfails := (overflow_strict _ _ _).mpr hover
    exact ⟨answersOverflow_of_fails .little hfails, answersOverflow_of_fails .big hfails⟩

/-- Settles O14: `encinto_bothOrders` at one slice, and one byte has no order. -/
theorem encinto8WritesTheByte : Obligations.Encinto8WritesTheByte := by
  refine ⟨decodeCmd_encode .encinto8Le, decodeCmd_encode .encinto8Be, fun s => ?_⟩
  obtain ⟨hfit, hover, hstrictFit, hstrictOver, hrepeatLe, hrepeatBe⟩ := encinto_bothOrders .w8 s rfl rfl
  exact ⟨hfit, hover, hstrictFit, hstrictOver, hrepeatLe, hrepeatBe, exec_w8_congr s rfl rfl rfl⟩

/-- Settles O15: the list of `valueSlices` written out, at rising shifts (LE) and at falling shifts (BE). -/
theorem encinto16WritesTwoBytes : Obligations.Encinto16WritesTwoBytes :=
  ⟨decodeCmd_encode .encinto16Le, decodeCmd_encode .encinto16Be,
    fun s _ _ hle hbe => encinto_bothOrders .w16 s hle hbe⟩

/-- Settles O16, as O15 at four slices. -/
theorem encinto32WritesFourBytes : Obligations.Encinto32WritesFourBytes :=
  ⟨decodeCmd_encode .encinto32Le, decodeCmd_encode .encinto32Be,
    fun s _ _ hle hbe => encinto_bothOrders .w32 s hle hbe⟩

/-- Settles O17, as O15 at eight slices: here no bit of VALUE is cut off. -/
theorem encinto64WritesEightBytes : Obligations.Encinto64WritesEightBytes :=
  ⟨decodeCmd_encode .encinto64Le, decodeCmd_encode .encinto64Be,
    fun s _ _ hle hbe => encinto_bothOrders .w64 s hle hbe⟩

end Sys2Proof.Machine
end

section
/-! PROOFS. The bounds predicate for both policies, the error it decides, and the width its sum needs (rules R79, R80). -/

namespace Sys2Proof.Machine

/-- An ENCINTO command answers the error exactly when its bounds check fails; neither VALUE nor the order enters. -/
theorem isErr_of_exec_encinto {i : Instr} {s t : State} (hi : i.isInto = true) (hexec : exec i s = .next t) :
    isErr t.response = overflow false (offsetOperand s) i.width.bytes (lenOperand s) := by
  rw [exec_eq, if_pos hi] at hexec
  rcases encInto_cases false i.width i.order s with ⟨ho, he⟩ | ⟨ho, he⟩ <;>
    obtain rfl := Host.Outcome.next.inj (hexec.symm.trans he)
  · exact ho.symm
  · exact ho.symm

/-- Settles O27: the predicate said of the numbers under each policy, and `isErr_of_exec_encinto` at equal operands. -/
theorem boundsPredicateIsExact : Obligations.BoundsPredicateIsExact := by
  refine ⟨hardware_strictBounds, fun off w l => ⟨overflow_hardware off w l, overflow_strict off w l⟩,
    overflow_lax_eq_false, fun off w l hshort => (overflow_hardware off w l).mpr (by omega),
    fun off w l hwl => ⟨?_, (overflow_lax_eq_false _ w l).mpr (by omega), (overflow_hardware _ w l).mpr (by omega)⟩,
    fun off w l => ⟨fun hwl => ?_, fun hshort => (overflow_strict off w l).mpr (by omega)⟩,
    fun i j s t u v hi hj hwidth ht hu => ?_⟩
  · rw [overflow_lax_eq_false]
    omega
  · rw [overflow_strict_eq_false]
    omega
  · rw [isErr_of_exec_encinto hi ht, isErr_of_exec_encinto hj hu, hwidth]
    rfl

/-- Held in the ports' own width, the last offset plus 8 wraps to 7. -/
theorem toNat_allOnes_add_eight {n : Nat} (hn : 4 ≤ n) : (BitVec.allOnes n + BitVec.ofNat n 8).toNat = 7 := by
  have hport : 2 ^ 4 ≤ 2 ^ n := Nat.pow_le_pow_right (by decide) hn
  have hsum : 2 ^ n - 1 + 8 = 7 + 2 ^ n := by omega
  rw [BitVec.toNat_add, BitVec.toNat_allOnes, BitVec.toNat_ofNat, Nat.mod_eq_of_lt (a := 8) (by omega), hsum,
    Nat.add_mod_right, Nat.mod_eq_of_lt (by omega)]

/-- Settles O28: the sum is exact by `toNat_boundsSum`, and the last offset is `2 ^ n - 1`. -/
theorem boundsSumNeverWraps : Obligations.BoundsSumNeverWraps := by
  refine fun n hn => ⟨fun off w => ?_, fun off len w => decide_eq_true_iff, toNat_allOnes_add_eight hn⟩
  have hsum := toNat_boundsSum hn off w
  have hoff := off.isLt
  have hpos := width_bytes_pos w
  have hle := width_bytes_le w
  exact ⟨hsum, by omega, by omega⟩

end Sys2Proof.Machine
end

section
/-! PROOFS. The chained writer: one field is one step, and the fields' bytes are one write (rule R83). -/

namespace Sys2Proof.Machine

/-- The block decodes the form, order and width the field names. -/
@[simp] theorem instr_fieldCommand (f : ChainField) (pos len : Nat) :
    (f.command pos len).instr = instrOfFields true f.order f.width := decodeCmd_encode _

theorem fitsBuffer_fieldCommand (f : ChainField) (pos len : Nat) :
    fitsBuffer (f.command pos len) ↔ pos + f.width.bytes ≤ len := by
  rw [fitsBuffer, instr_fieldCommand, width_instrOfFields]
  exact Iff.rfl

theorem isInto_fieldCommand (f : ChainField) (pos len : Nat) : (f.command pos len).instr.isInto = true := by simp

/-- A field that fits: its command answers the width, and its bytes stand at its position. -/
theorem step_field_of_fits {s : State} {f : ChainField} {pos len : Nat} {rest : List HostEvent}
    (hfaulted : s.faulted = false) (hs : s.script = .issue (f.command pos len) :: rest)
    (hfit : pos + f.width.bytes ≤ len) :
    ∃ t : State, step s = .next t ∧ t.faulted = false ∧ t.script = rest ∧ t.response = some (.ok f.width.bytes) ∧
      t.buffer = Memory.write s.buffer pos (bytes (f.value.toNat % 2 ^ f.width.bits) f.width f.order) := by
  have hi := isInto_fieldCommand f pos len
  have hfits := (fitsBuffer_fieldCommand f pos len).mpr hfit
  have hresponse : commandResponse (f.command pos len) = .ok f.width.bytes := by
    rw [commandResponse_of_fits hi hfits, instr_fieldCommand, width_instrOfFields]
  refine ⟨_, step_issue_eq (hasStopped_eq_false (.inr hfaulted)) hs, ?_, rfl, congrArg some hresponse, ?_⟩
  · simp [hfaulted, hresponse, isErr]
  · rw [receive_buffer, answeredState_buffer, commandEffect_of_writes _ _ ⟨hi, hfits⟩, instr_fieldCommand,
      width_instrOfFields, order_instrOfFields]
    rfl

/-- A field that crosses the end: its command answers the error, the run is marked, and no byte is written. -/
theorem step_field_of_crosses {s : State} {f : ChainField} {pos len : Nat} {rest : List HostEvent}
    (hfaulted : s.faulted = false) (hs : s.script = .issue (f.command pos len) :: rest)
    (hcross : len < pos + f.width.bytes) :
    ∃ u : State, step s = .next u ∧ u.response = some (.err .bufferOverflowError) ∧ u.faulted = true ∧
      u.buffer = s.buffer := by
  have hno := (fitsBuffer_fieldCommand f pos len).not.mpr (Nat.not_le.mpr hcross)
  have hresponse := commandResponse_of_overflows (isInto_fieldCommand f pos len) hno
  refine ⟨_, step_issue_eq (hasStopped_eq_false (.inr hfaulted)) hs, congrArg some hresponse, ?_,
    commandEffect_of_not _ _ fun h => hno h.2⟩
  simp [hresponse, isErr]

/-- Two writes of which the second begins where the first ends are one write. -/
theorem Memory.write_append (m : Memory) (p : Nat) (bs cs : List Byte) :
    Memory.write m p (bs ++ cs) = Memory.write (Memory.write m p bs) (p + bs.length) cs := by
  induction bs generalizing m p with
  | nil => rfl
  | cons b bs ih =>
    rw [List.cons_append, Memory.write, Memory.write, ih, List.length_cons, Nat.add_right_comm, Nat.add_assoc]

theorem chainBytes_length (fs : List ChainField) : (chainBytes fs).length = chainLength fs := by
  induction fs with
  | nil => rfl
  | cons f fs ih => rw [chainBytes, chainLength, List.length_append, bytes_length, ih]

/-- Rule R83: the whole chain has the effect of one write of the concatenated bytes. -/
theorem runSteps_chain {s : State} {fs : List ChainField} {start len : Nat} {rest : List HostEvent}
    (hfaulted : s.faulted = false) (hfit : start + chainLength fs ≤ len)
    (hs : s.script = chain len start fs ++ rest) :
    ∃ t : State, runSteps fs.length s = .next t ∧ t.faulted = false ∧ t.script = rest ∧
      t.buffer = Memory.write s.buffer start (chainBytes fs) := by
  induction fs generalizing s start with
  | nil => exact ⟨s, rfl, hfaulted, hs, rfl⟩
  | cons f fs ih =>
    rw [chainLength] at hfit
    obtain ⟨t, hstep, htfaulted, htscript, _, htbuffer⟩ := step_field_of_fits hfaulted hs (by omega)
    obtain ⟨u, hrun, hufaulted, huscript, hubuffer⟩ := ih htfaulted (by omega) htscript
    refine ⟨u, (runSteps_succ_of_next _ _ _ hstep).trans hrun, hufaulted, huscript, ?_⟩
    rw [hubuffer, htbuffer, chainBytes, Memory.write_append, bytes_length]

/-- Every field of a chain that fits is answered with its width. -/
theorem runSteps_chain_response {s : State} {fs : List ChainField} {start len k : Nat} {rest : List HostEvent}
    {f : ChainField} (hfaulted : s.faulted = false) (hfit : start + chainLength fs ≤ len)
    (hs : s.script = chain len start fs ++ rest) (hk : fs[k]? = some f) :
    ∃ u : State, runSteps (k + 1) s = .next u ∧ u.response = some (.ok f.width.bytes) := by
  induction fs generalizing s start k with
  | nil => simp at hk
  | cons g fs ih =>
    rw [chainLength] at hfit
    obtain ⟨t, hstep, htfaulted, htscript, hresponse, _⟩ := step_field_of_fits hfaulted hs (by omega)
    rw [runSteps_succ_of_next _ _ _ hstep]
    cases k with
    | zero =>
      obtain rfl : g = f := by simpa using hk
      exact ⟨t, rfl, hresponse⟩
    | succ k => exact ih htfaulted (by omega) htscript (by simpa using hk)

/-- One more step at the end of a run. -/
theorem runSteps_succ_of_last {n : Nat} {s t : State} (hrun : runSteps n s = .next t) :
    runSteps (n + 1) s = step t := by
  induction n generalizing s with
  | zero =>
    obtain rfl := Host.Outcome.next.inj hrun
    rw [runSteps]
    cases step s <;> rfl
  | succ n ih =>
    rw [runSteps] at hrun ⊢
    cases hstep : step s with
    | next s' =>
      rw [hstep] at hrun
      exact ih hrun
    | fault r => simp [hstep] at hrun
    | refused r => simp [hstep] at hrun

/-- Settles O48: the chain is one write, read back by `Memory.read_write`; the field after it meets the end of the
buffer in the state the chain left. -/
theorem chainedWritesLandSideBySide : Obligations.ChainedWritesLandSideBySide := by
  intro s fs start len rest hfaulted hfit hs
  obtain ⟨t, hrun, htfaulted, htscript, htbuffer⟩ := runSteps_chain hfaulted hfit hs
  refine ⟨⟨t, hrun, htfaulted, htscript, fun a => ?_⟩, fun k f hk => runSteps_chain_response hfaulted hfit hs hk,
    fun g more hcross hrest => ?_⟩
  · rw [htbuffer, Memory.read_write, chainBytes_length]
  · obtain ⟨u, hstep, hresponse, hufaulted, hubuffer⟩ :=
      step_field_of_crosses htfaulted (htscript.trans hrest) hcross
    exact ⟨t, u, hrun, (runSteps_succ_of_last hrun).trans hstep, hresponse, hufaulted, hubuffer⟩

end Sys2Proof.Machine
end

section
/-! PROOFS. The one error: which commands raise it, what it leaves unchanged, and the two ways a host goes on after it
(rules R93, R95, R98, R103). -/

namespace Sys2Proof.Machine

theorem isErr_iff (r : Option Response) : isErr r = true ↔ r = some (.err .bufferOverflowError) := by
  rcases r with _ | ⟨_ | _ | ⟨⟨⟩⟩⟩ <;> simp [isErr]

theorem statusPort_eq_one_iff (r : Option Response) :
    statusPort r = 1#1 ↔ r = some (.err .bufferOverflowError) := by
  rcases r with _ | ⟨_ | _ | ⟨⟨⟩⟩⟩ <;> simp [statusPort]

theorem statusPort_eq_zero_iff (r : Option Response) :
    statusPort r = 0#1 ↔ r ≠ some (.err .bufferOverflowError) := by
  rcases r with _ | ⟨_ | _ | ⟨⟨⟩⟩⟩ <;> simp [statusPort]

/-- Rule R93, of one instruction that has answered. -/
theorem exec_response_eq_err_iff {i : Instr} {s t : State} (hexec : exec i s = .next t) :
    t.response = some (.err .bufferOverflowError) ↔
      i.isInto = true ∧ offsetOperand s + i.width.bytes > lenOperand s := by
  rcases exec_cases i s with ⟨hi, he⟩ | ⟨_, hfit, he⟩ | ⟨hi, hover, he⟩ <;>
    obtain rfl := Host.Outcome.next.inj (hexec.symm.trans he)
  · simp [hi]
  · simp [Nat.not_lt.mpr hfit]
  · simp [hi, hover]

/-- Settles O33: the response by `exec_response_eq_err_iff`, and STATUS reports the response. -/
theorem overflowErrorExactlyWhen : Obligations.OverflowErrorExactlyWhen := by
  intro i s
  obtain ⟨r, m, hexec⟩ := exec_frame i s
  have herr := exec_response_eq_err_iff hexec
  exact ⟨_, hexec, herr, (statusPort_eq_one_iff _).trans herr, (statusPort_eq_zero_iff _).trans herr.not⟩

/-- Settles O34: only the failed bounds check answers the error, and then raising it is all that happened. -/
theorem failingCommandChangesNothing : Obligations.FailingCommandChangesNothing := by
  intro i s t hexec herr
  obtain ⟨hi, hover⟩ := (exec_response_eq_err_iff hexec).mp ((isErr_iff _).mp herr)
  exact Host.Outcome.next.inj (hexec.symm.trans (exec_of_encinto_overflows hi hover))

/-- The host's state once a command that does not fit has been answered: the command is on the ports and off the script,
and the run is marked. -/
def failedState (c : Command) (rest : List HostEvent) (s : State) : State :=
  { s with ports := c, script := rest, response := some (.err .bufferOverflowError), faulted := true }

/-- Rules R81, R103: no byte is written, and the host sees the error. -/
theorem step_issue_of_overflows {s : State} {c : Command} {rest : List HostEvent} (hrun : hasStopped s = false)
    (hs : s.script = .issue c :: rest) (hi : c.instr.isInto = true) (hover : ¬fitsBuffer c) :
    step s = .next (failedState c rest s) := by
  rw [step_issue_eq hrun hs, answeredState, commandResponse_of_overflows hi hover,
    commandEffect_of_not s.buffer c fun h => hover h.2]
  simp only [receive, respond, presentCommand, failedState, isErr, Bool.or_true]

/-- Settles O35: the failed command left the buffer and the policy, and of the host's state the next command uses nothing
else but the mark. -/
theorem errorIsNotSticky : Obligations.ErrorIsNotSticky := by
  intro s c d rest hpolicy hs hi hover
  have hrun := hasStopped_eq_false (.inl hpolicy)
  have hfails := step_issue_of_overflows hrun hs hi hover
  have hafter : step (failedState c (.issue d :: rest) s) = .next (receive (answeredState d rest _)) :=
    step_issue_eq (hasStopped_eq_false (.inl hpolicy)) rfl
  have halone := step_issue_eq (s := { s with script := .issue d :: rest }) hrun rfl
  refine ⟨_, halone, ?_⟩
  rw [runSteps_succ_of_next _ _ _ hfails, runSteps_succ_of_next _ _ _ hafter]
  rfl

/-- Settles O36: in `failedState` the check fails as before, and a marked reference sequencer has stopped. -/
theorem referenceSequencerStopsAtError : Obligations.ReferenceSequencerStopsAtError := by
  intro s c rest hpolicy hfaulted hs hi hover
  have hfails := step_issue_of_overflows (hasStopped_eq_false (.inr hfaulted)) hs hi hover
  have hstopped : hasStopped (failedState c rest s) = true := by simp [hasStopped, failedState, hpolicy]
  have hagain : exec c.instr (failedState c rest s) = .next (failedState c rest s) :=
    exec_of_encinto_overflows hi (Nat.lt_of_not_le hover)
  refine ⟨_, hfails, rfl, rfl, rfl, Bool.and_false _, hagain, fun n => ?_⟩
  rw [runSteps_succ_of_next _ _ _ hfails, runSteps_succ_of_stopped _ _ hstopped]

end Sys2Proof.Machine
end

section
/-! PROOFS. The mark an error leaves on a run (rule R103, D11; log entry 9). -/

namespace Sys2Proof.Machine

/-- A step marks the run exactly when it answers the error, and never takes the mark away. -/
theorem faulted_of_step {s t : State} (hstep : step s = .next t) : t.faulted = (s.faulted || isErr t.response) := by
  have hquiet : s.faulted = (s.faulted || isErr none) := (Bool.or_false _).symm
  rcases step_cases s (running_of_step hstep) with ⟨_, he⟩ | ⟨c, rest, _, he⟩ | ⟨c, other, rest, _, he⟩ |
      ⟨m, rest, _, he⟩ | ⟨rest, _, he⟩
  · obtain rfl := Host.Outcome.next.inj (hstep.symm.trans he)
    exact hquiet
  · obtain rfl := Host.Outcome.next.inj (hstep.symm.trans (he.trans (issueCommand_eq c rest s)))
    rfl
  · obtain rfl := Host.Outcome.next.inj (hstep.symm.trans (he.trans (issueRacingCommand_eq c other rest s)))
    rfl
  · obtain rfl := Host.Outcome.next.inj (hstep.symm.trans he)
    exact hquiet
  · obtain rfl := Host.Outcome.next.inj (hstep.symm.trans he)
    exact hquiet

/-- Where a pending error has marked the run, an unmarked state shows none. -/
theorem isErr_eq_false_of_unmarked {s : State} (hmark : isErr s.response = true → s.faulted = true)
    (hfaulted : s.faulted = false) : isErr s.response = false :=
  Bool.eq_false_iff.mpr fun herr => Bool.eq_false_iff.mp hfaulted (hmark herr)

/-- Settles O56: both clauses are read off `faulted_of_step`. -/
theorem stepIntoUnfaultedShowsNoError : Obligations.StepIntoUnfaultedShowsNoError := by
  intro s t hmark hstep
  have hfaulted := faulted_of_step hstep
  refine ⟨fun herr => by rw [hfaulted, herr, Bool.or_true], fun hunmarked => ?_⟩
  obtain ⟨hs, ht⟩ := Bool.or_eq_false_iff.mp (hfaulted.symm.trans hunmarked)
  exact ⟨hs, isErr_eq_false_of_unmarked hmark hs, ht⟩

/-- A run that answers a next state has taken its first step. -/
theorem exists_step_of_runSteps_succ {n : Nat} {s t : State} (hrun : runSteps (n + 1) s = .next t) :
    ∃ u : State, step s = .next u ∧ runSteps n u = .next t := by
  rw [runSteps] at hrun
  cases hstep : step s with
  | next u =>
    rw [hstep] at hrun
    exact ⟨u, rfl, hrun⟩
  | fault r => simp [hstep] at hrun
  | refused r => simp [hstep] at hrun

/-- Settles O37, by induction on the run's steps: the rest of the run starts unmarked, so its first step was one into an
unmarked state. -/
theorem unfaultedRunHadNoError : Obligations.UnfaultedRunHadNoError := by
  intro n
  induction n with
  | zero =>
    intro s t hmark hrun hunmarked m hm
    obtain rfl := Nat.le_zero.mp hm
    obtain rfl := Host.Outcome.next.inj hrun
    exact ⟨s, rfl, hunmarked, isErr_eq_false_of_unmarked hmark hunmarked⟩
  | succ n ih =>
    intro s t hmark hrun hunmarked m hm
    obtain ⟨u, hstep, hrest⟩ := exists_step_of_runSteps_succ hrun
    obtain ⟨humark, hback⟩ := stepIntoUnfaultedShowsNoError s u hmark hstep
    have hlater := ih u t humark hrest hunmarked
    cases m with
    | zero =>
      obtain ⟨_, hu, hufaulted, _⟩ := hlater 0 (Nat.zero_le n)
      obtain rfl := Host.Outcome.next.inj hu
      obtain ⟨hs, herr, _⟩ := hback hufaulted
      exact ⟨s, rfl, hs, herr⟩
    | succ m =>
      rw [runSteps_succ_of_next m s u hstep]
      exact hlater m (Nat.le_of_succ_le_succ hm)

end Sys2Proof.Machine
end

section
/-! PROOFS. A command to one of several instances (rules R10, R108). -/

namespace Sys2Proof.Machine

/-- `answer_spec` with the response named: it is the one the block gives alone. -/
theorem answer_eq (c : Command) (m : Memory) :
    answer c m = .next (respond (commandResponse c) (stateOfCommand c (commandEffect m c))) :=
  exec_command (stateOfCommand c m)

/-- `issueOn_spec` with the response named. -/
theorem issueOn_eq {p : Platform} {k b : Nat} {m : Memory} (c : Command) (hk : k < p.blocks.length)
    (hb : p.buffers[b]? = some m) :
    p.issueOn k b c = some (p.update k b c (some (commandResponse c)) (commandEffect m c)) := by
  rw [Platform.issueOn, List.getElem?_eq_getElem hk, hb]
  simp only [answer_eq]
  rfl

/-- Settles O58: the platform sets one block and one buffer, to what `exec_command` answers. -/
theorem instancesShareOnlyTheBuffer : Obligations.InstancesShareOnlyTheBuffer := by
  intro p k b c s hk hb hports
  subst hports
  have hlt := (List.getElem?_eq_some_iff.mp hb).1
  exact ⟨_, _, issueOn_eq s.ports hk hb, exec_command s, List.getElem?_set_self hk, List.getElem?_set_self hlt,
    fun j hj => List.getElem?_set_ne hj.symm, fun d hd => List.getElem?_set_ne hd.symm⟩

end Sys2Proof.Machine
end

section
/-! PROOFS. A reset between two commands, and the one step in which every command completes (rules R109, R120). -/

namespace Sys2Proof.Machine

/-- The answer to a command overwrites what a reset clears, the pending response, and reads none of it. -/
theorem answeredState_resetEvent (c : Command) (rest events : List HostEvent) (s : State) :
    answeredState c rest (resetEvent events s) = answeredState c rest s := rfl

/-- Nor does the answer depend on the script the command was taken from. -/
theorem answeredState_withScript (c : Command) (rest events : List HostEvent) (s : State) :
    answeredState c rest { s with script := events } = answeredState c rest s := rfl

/-- A reset neither stops a host nor restarts it (log entry 9). -/
theorem hasStopped_resetEvent (events : List HostEvent) (s : State) :
    hasStopped (resetEvent events s) = hasStopped s := rfl

/-- Settles O49: with or without the reset, the step answers `answeredState` of the same command and state. -/
theorem resetChangesNoOutcome : Obligations.ResetChangesNoOutcome := by
  intro s c rest hrun hs
  have hafter : step (resetEvent (.issue c :: rest) s) = .next (receive (answeredState c rest s)) := by
    rw [step_issue_eq ((hasStopped_resetEvent _ s).trans hrun) (resetEvent_script _ s), answeredState_resetEvent]
  have halone : step { s with script := .issue c :: rest } = .next (receive (answeredState c rest s)) := by
    rw [step_issue_eq (s := { s with script := .issue c :: rest }) hrun rfl, answeredState_withScript]
  exact ⟨_, step_resetBlock hrun hs, rfl, rfl, hafter.trans halone.symm⟩

/-- A running host takes a step, whatever its next event. -/
theorem exists_step_of_running {s : State} (hrun : hasStopped s = false) : ∃ t : State, step s = .next t := by
  rcases step_cases s hrun with ⟨_, he⟩ | ⟨c, rest, _, he⟩ | ⟨c, other, rest, _, he⟩ | ⟨m, rest, _, he⟩ | ⟨rest, _, he⟩
  · exact ⟨_, he⟩
  · exact ⟨_, he.trans (issueCommand_eq c rest s)⟩
  · exact ⟨_, he.trans (issueRacingCommand_eq c other rest s)⟩
  · exact ⟨_, he⟩
  · exact ⟨_, he⟩

/-- Settles O39: `exec_frame` for one instruction, `step_of_stopped` and `exists_step_of_running` for one step. -/
theorem everyStepCompletes : Obligations.EveryStepCompletes := by
  refine ⟨fun i s => ?_, fun s => ⟨step_of_stopped s, exists_step_of_running⟩⟩
  obtain ⟨_, _, hexec⟩ := exec_frame i s
  exact ⟨_, hexec⟩

end Sys2Proof.Machine
end

section
/-! PROOFS. The byte sequences in reverse and in halves: reading back in the opposite order, and a wide value as two of
half the width (laws L-5, L-6). -/

namespace Sys2Proof.Machine

/-- Reading a byte sequence as little-endian is packing it on the lanes of a port. -/
theorem littleValue_eq_packLanes (bs : List Byte) : littleValue bs = packLanes bs := by
  induction bs with
  | nil => rfl
  | cons b bs ih => rw [littleValue, packLanes, ih]

/-- The other direction of law L-1: every sequence of W bytes is the encoding of the value it reads as. -/
theorem bytes_littleValue {bs : List Byte} {w : Width} (hlen : bs.length = w.bytes) :
    bytes (littleValue bs) w .little = bs := by
  refine List.ext_getElem ((bytes_length _ _ _).trans hlen.symm) fun k _ hk => ?_
  have hlane : lane (littleValue bs) w .little k = bs[k] := by
    apply BitVec.eq_of_toNat_eq
    rw [toNat_lane, sh_little, littleValue_eq_packLanes, packLanes_div_mod, List.getD_eq_getElem _ _ hk]
  simpa [bytes] using hlane

/-- W bytes read as a value of the width, for it is what its own encoding reads as. -/
theorem littleValue_lt {bs : List Byte} {w : Width} (hlen : bs.length = w.bytes) : littleValue bs < 2 ^ w.bits := by
  have hmod : littleValue bs = littleValue bs % 2 ^ w.bits :=
    calc littleValue bs
        = decodeRef (bytes (littleValue bs) w .little) .little := congrArg littleValue (bytes_littleValue hlen).symm
      _ = littleValue bs % 2 ^ w.bits := decodeRef_bytes _ w .little
  exact hmod ▸ Nat.mod_lt _ (Nat.two_pow_pos _)

/-- Law L-5: the little-endian bytes of the endian swap are the big-endian bytes of the value. -/
theorem bytes_endianSwap (v : Nat) (w : Width) :
    bytes (decodeRef (bytes v w .little) .big) w .little = bytes v w .big := by
  rw [decodeRef, ← bytes_big, bytes_littleValue (bytes_length v w .big)]

/-- Settles O24: the swap reads the W big-endian bytes as little-endian, and by `bytes_endianSwap` the second swap reads
big-endian bytes back in their own order. -/
theorem endianSwapTwiceIsIdentity : Obligations.EndianSwapTwiceIsIdentity := by
  refine ⟨fun v w hv => ⟨?_, ?_⟩, by decide⟩
  · exact littleValue_lt (by rw [List.length_reverse, bytes_length])
  · rw [bytes_endianSwap, decodeRef_bytes, Nat.mod_eq_of_lt hv]

/-- The little-endian lanes from position `n` up are the lanes of the value without its lowest `n` bytes; no width is
consulted. -/
theorem lane_little_add (v : Nat) (w h : Width) (n k : Nat) :
    lane v w .little (n + k) = lane (v / 2 ^ (8 * n)) h .little k := by
  apply BitVec.eq_of_toNat_eq
  rw [toNat_lane, toNat_lane, sh_little, sh_little, Nat.div_div_eq_div_mul, ← Nat.pow_add, ← Nat.mul_add]

/-- Law L-6, little-endian: the low half's lanes come first. -/
theorem bytes_little_halves (v : Nat) {w h : Width} (hw : w.bytes = 2 * h.bytes) :
    bytes v w .little = bytes (v % 2 ^ h.bits) h .little ++ bytes (v / 2 ^ h.bits) h .little := by
  have hlow : lane v w .little = lane v h .little := rfl
  have hhigh : lane v w .little ∘ (h.bytes + ·) = lane (v / 2 ^ h.bits) h .little :=
    funext fun k => lane_little_add v w h h.bytes k
  rw [bytes_mod, bytes, hw, Nat.two_mul, List.range_add, List.map_append, List.map_map, hhigh, hlow, bytes, bytes]

/-- Settles O25: big-endian order is the little-endian halves of `bytes_little_halves`, reversed. -/
theorem wideBytesAreTwoHalves : Obligations.WideBytesAreTwoHalves := by
  intro v w h hw
  refine ⟨?_, bytes_little_halves v hw⟩
  rw [bytes_big, bytes_little_halves v hw, List.reverse_append, ← bytes_big, ← bytes_big]

end Sys2Proof.Machine
end

section
/-! PROOFS. The mark is never taken away, and keeps a run from being final (rule R103, D11; log entry 9). -/

namespace Sys2Proof.Machine

/-- Rule R103: a faulted run is not final, whatever is left of its script. -/
theorem final_of_faulted {s : State} (hfaulted : s.faulted = true) : s.final = false := by
  rw [State.final, hfaulted, Bool.not_true, Bool.and_false]

/-- By `faulted_of_step` no step takes the mark away, so no run does. -/
theorem faulted_of_runSteps {n : Nat} {s t : State} (hfaulted : s.faulted = true) (hrun : runSteps n s = .next t) :
    t.faulted = true := by
  induction n generalizing s with
  | zero =>
    obtain rfl := Host.Outcome.next.inj hrun
    exact hfaulted
  | succ n ih =>
    obtain ⟨u, hstep, hrest⟩ := exists_step_of_runSteps_succ hrun
    have hu : u.faulted = true := by rw [faulted_of_step hstep, hfaulted, Bool.true_or]
    exact ih hu hrest

/-- Settles O38: the mark is kept by every run, and rules out a final state. -/
theorem faultedRunStaysFaulted : Obligations.FaultedRunStaysFaulted := fun _ _ _ hfaulted hrun =>
  have ht := faulted_of_runSteps hfaulted hrun
  ⟨ht, final_of_faulted ht⟩

end Sys2Proof.Machine
end
